-- ==== Sys2Proof/Word.lean ====
section
/-! DEFINITION. The widths of the block's values: `00_scope.md` rule R5 (`W_ARG8`, `W_BITSET`,
`W_TIME`) and rule R6 (every value is an unsigned integer, bit 0 the least significant). -/

namespace Sys2Proof

/-- A byte: one unit of the RX stream, and the width `W_ARG8` of `level` and `intensity` (R5, R6). -/
abbrev Byte := BitVec 8

/-- A 32-bit value: the widths `W_BITSET` and `W_TIME` (R5). -/
abbrev Word := BitVec 32

end Sys2Proof
end

