-- ==== Sys2Proof/Config.lean ====
section
/-! DEFINITION. The configuration constants of one instance of the hardware (`00_scope.md` rule R5,
`10_state.md` rule R20), with the spec's decided defaults, and the values the spec leaves open. -/

namespace Sys2Proof

/-- An abstract pin identifier (R5, R46). The reference configuration uses `DIG(0..4)` and
`PWM(0..5)`. Another instance may use any identifiers, and two slots may share one. -/
inductive Pin where
  | dig (i : Nat)
  | pwm (i : Nat)
deriving DecidableEq, Repr, Inhabited

/-- An actuator bank: its pin table `PIN[0..N-1]` (R5, glossary). -/
structure Bank where
  pins : List Pin
deriving DecidableEq, Repr, Inhabited

/-- The slot count `N` of a bank (R5). -/
def Bank.slots (b : Bank) : Nat := b.pins.length

/-- `UNKNOWN_OPCODE_POLICY` (R5, D7). The normative value is `leave`. -/
inductive UnknownOpcodePolicy where
  /-- The byte stays at the head of the stream (R59). -/
  | leave
  /-- The open question of D7: the one byte is consumed, and the next call goes on behind it. -/
  | discardOne
deriving DecidableEq, Repr

/-- `CLOCK_SAMPLING` (R5, D6). The decided value is `once`. -/
inductive ClockSampling where
  /-- One sample per `service()`, returned by every `Now()` inside that call (R44). -/
  | once
  /-- Every `Now()` is a read of its own, in clock order (D6, R142). -/
  | fresh
deriving DecidableEq, Repr

/-- The parameters of one instance (R5, R20). No rule writes them. -/
structure Config where
  /-- `OPC_DIGITAL_WRITE`. -/
  opcDigitalWrite : Byte
  /-- `OPC_TIMED_PULSE`. -/
  opcTimedPulse : Byte
  /-- `OPC_PWM_SET`. -/
  opcPwmSet : Byte
  /-- `N_DW` and `PIN_DW`. -/
  bankDW : Bank
  /-- `N_TP` and `PIN_TP`. -/
  bankTP : Bank
  /-- `N_PWM` and `PIN_PWM`. -/
  bankPWM : Bank
  /-- `HIGH`, the byte the scheduler writes to drive a pin HIGH. -/
  high : Byte
  /-- `LOW`, the byte the scheduler writes to drive a pin LOW. -/
  low : Byte
  unknownOpcode : UnknownOpcodePolicy
  clockSampling : ClockSampling
deriving DecidableEq, Repr

/-- The reference configuration: the decided values of R5 (D1, D2, D3, D4, D6, D7).
DESIGN CHOICE of the spec (log entries 2, 3, 4). -/
def Config.reference : Config where
  opcDigitalWrite := 0x01
  opcTimedPulse := 0x02
  opcPwmSet := 0x03
  bankDW := ⟨[.dig 0, .dig 1, .dig 2, .dig 3, .dig 4]⟩
  bankTP := ⟨[.dig 0, .dig 1, .dig 2, .dig 3, .dig 4]⟩
  bankPWM := ⟨[.pwm 0, .pwm 1, .pwm 2, .pwm 3, .pwm 4, .pwm 5]⟩
  high := 1
  low := 0
  unknownOpcode := .leave
  clockSampling := .once

/-- FREE VALUE (log entry 3): what a bank's pin table gives at an index that has no slot.
No rule evaluates it in a state with R25's invariant. -/
opaque Config.freePin : Bank → Nat → Pin

/-- FREE VALUE (log entry 16): `msb(0)`, which has no value (R8, D22). -/
opaque Config.msbOfZero : Nat

/-- FREE VALUE (log entry 7): the milliseconds gone by before the `k`-th clock read for which the
state holds no input (R44, D21: nothing bounds them). -/
opaque Config.freeElapsed : Nat → Nat

/-- FREE VALUE (log entry 20): `PIN_MAP`, the physical pin behind an identifier, OPEN (R5, D3). -/
opaque Config.pinMap : Pin → Nat

end Sys2Proof
end

