-- ==== Sys2Proof/Syntax.lean ====
section
/-! DEFINITION. The command set: the closed set of three commands (`30_encoding.md` rule R56,
`opcode_table.json`), with their decoded fields. -/

namespace Sys2Proof

/-- A decoded command, one constructor per row of the opcode map (R56). Every value of every field
is legal (R60). -/
inductive Instr where
  /-- `DIGITAL_WRITE bitset, level` (R81). -/
  | digitalWrite (bitset : Word) (level : Byte)
  /-- `TIMED_PULSE bitset, duration_ms` (R83). -/
  | timedPulse (bitset : Word) (duration : Word)
  /-- `PWM_SET bitset, intensity` (R82). -/
  | pwmSet (bitset : Word) (intensity : Byte)
deriving DecidableEq, Repr

/-- The field every command has: `target_bitset` (R52, R53). -/
def Instr.bitset : Instr → Word
  | .digitalWrite b _ => b
  | .timedPulse b _ => b
  | .pwmSet b _ => b

end Sys2Proof
end

