-- ==== Sys2Proof/WellFormed.lean ====
section
/-! DEFINITION. What the spec requires of a configuration (`00_scope.md` rule R5, D1, D20) and of a
command (`30_encoding.md` rule R60: nothing). -/

namespace Sys2Proof

/-- The three opcode values are pairwise distinct (R5, R56). -/
def Config.opcodesDistinct (c : Config) : Bool :=
  c.opcDigitalWrite != c.opcTimedPulse && c.opcDigitalWrite != c.opcPwmSet
    && c.opcTimedPulse != c.opcPwmSet

/-- A slot count lies in `0 .. 32` (R5, D20). -/
def Bank.wf (b : Bank) : Bool := decide (b.slots ≤ 32)

/-- A configuration the spec allows (R5). -/
def Config.wf (c : Config) : Bool :=
  c.opcodesDistinct && c.bankDW.wf && c.bankTP.wf && c.bankPWM.wf

/-- Every command is well formed: the fields have exactly their widths by type, and no field value
is an error (R60). -/
def Instr.wf : Instr → Bool
  | .digitalWrite _ _ => true
  | .timedPulse _ _ => true
  | .pwmSet _ _ => true

end Sys2Proof
end

