-- ==== Sys2Proof/Decode.lean ====
section
/-! DEFINITION. The frame decoder and its inverse: `30_encoding.md` rules R51 to R62, and the RX
primitives of `20_memory.md` rules R32 to R34 over the queue of unread bytes, head first. -/

namespace Sys2Proof

/-! ## Fields -/

/-- `be32` (R8, R54): the first byte is the most significant. -/
def be32 (b0 b1 b2 b3 : Byte) : Word := b0 ++ b1 ++ b2 ++ b3

/-- `enc32` (R61): four bytes, most significant first. -/
def enc32 (v : Word) : List Byte :=
  [v.extractLsb' 24 8, v.extractLsb' 16 8, v.extractLsb' 8 8, v.extractLsb' 0 8]

/-- Byte `k` of a consumed frame. It is asked only below the frame's length. -/
def frameByte (f : List Byte) (k : Nat) : Byte := f.getD k 0

/-- The 32-bit field at byte offset `k` of a frame (R54). -/
def frameWord (f : List Byte) (k : Nat) : Word :=
  be32 (frameByte f k) (frameByte f (k + 1)) (frameByte f (k + 2)) (frameByte f (k + 3))

/-! ## Opcodes and frame sizes -/

/-- The three known opcodes (R56). -/
inductive Opcode where
  | digitalWrite
  | timedPulse
  | pwmSet
deriving DecidableEq, Repr

/-- The opcode a byte stands for, `none` for an unknown opcode (R56, R59). -/
def opcodeOf (c : Config) (op : Byte) : Option Opcode :=
  if op = c.opcDigitalWrite then some .digitalWrite
  else if op = c.opcTimedPulse then some .timedPulse
  else if op = c.opcPwmSet then some .pwmSet
  else none

/-- `SIZE_DW`, `SIZE_TP`, `SIZE_PWM`: the frame size, opcode byte included (R5, R57). -/
def Opcode.size : Opcode → Nat
  | .digitalWrite => 6
  | .timedPulse => 9
  | .pwmSet => 6

/-- `FrameSize(op)` (R57). -/
def frameSize (c : Config) (op : Byte) : Option Nat := (opcodeOf c op).map Opcode.size

/-- The fields of a whole frame (R52, R53, R54, R55). -/
def decodeFrame (o : Opcode) (f : List Byte) : Instr :=
  match o with
  | .digitalWrite => .digitalWrite (frameWord f 1) (frameByte f 5)
  | .timedPulse => .timedPulse (frameWord f 1) (frameWord f 5)
  | .pwmSet => .pwmSet (frameWord f 1) (frameByte f 5)

/-! ## The RX primitives -/

/-- `RxAvailable()` (R32). -/
def rxAvailable (rx : List Byte) : Nat := rx.length

/-- `RxPeek()` (R33), `none` on an empty stream, where the spec gives it no meaning (U9). -/
def rxPeek (rx : List Byte) : Option Byte := rx.head?

/-- `RxRead(n)` (R34): the first `n` bytes, and the stream without them. -/
def rxRead (n : Nat) (rx : List Byte) : List Byte × List Byte := (rx.take n, rx.drop n)

/-! ## The decoder -/

/-- Why no frame was decoded: the three early returns of `poll_once` (R66). -/
inductive DecodeReject where
  /-- Step 1: the stream is empty (R67). -/
  | noBytes
  /-- Step 2: the head byte is none of the three opcodes (R59, R68), condition (b) of R110. -/
  | unknownOpcode (op : Byte)
  /-- Step 3: fewer bytes than the frame size are there (R69), condition (a) of R110. -/
  | incompleteFrame (op : Byte) (available : Nat)
deriving DecidableEq, Repr

/-- The command at the head of a stream and the stream behind it, or the reason there is none:
the tests of `poll_once` in their order (R66, R118). -/
def decode (c : Config) (rx : List Byte) : Except DecodeReject (Instr × List Byte) :=
  match rxPeek rx with
  | none => .error .noBytes
  | some op =>
    match opcodeOf c op with
    | none => .error (.unknownOpcode op)
    | some o =>
      if rxAvailable rx < o.size then .error (.incompleteFrame op (rxAvailable rx))
      else .ok (decodeFrame o (rxRead o.size rx).1, (rxRead o.size rx).2)

/-! ## The encoder -/

/-- `Encode` (R61). -/
def encode (c : Config) : Instr → List Byte
  | .digitalWrite bitset level => c.opcDigitalWrite :: (enc32 bitset ++ [level])
  | .timedPulse bitset dur => c.opcTimedPulse :: (enc32 bitset ++ enc32 dur)
  | .pwmSet bitset intensity => c.opcPwmSet :: (enc32 bitset ++ [intensity])

/-- The stream of a list of commands, in sending order, with nothing between the frames (R51). -/
def encodeStream (c : Config) (is : List Instr) : List Byte := is.flatMap (encode c)

/-! ## The words of the opcode table

The table reads a frame as one number, first byte most significant (its rows' note, R52, R53). -/

/-- The bytes of the number `w` of `nbits` bits, first byte most significant. -/
def tableBytes (nbits w : Nat) : List Byte :=
  (List.range ((nbits + 7) / 8)).map fun k =>
    BitVec.ofNat 8 (w / 2 ^ (8 * ((nbits + 7) / 8 - 1 - k)))

/-- The same bytes with operand bytes of zero behind them, up to the longest frame (R58). -/
def paddedTableBytes (nbits w : Nat) : List Byte :=
  tableBytes nbits w ++ List.replicate (9 - (nbits + 7) / 8) 0

/-- What the decoder reads from a table word, in the reference configuration, whose opcode values
are the table's (log entry 18). -/
def decodeTableWord (nbits w : Nat) : Option Instr :=
  match decode Config.reference (paddedTableBytes nbits w) with
  | .ok (i, _) => some i
  | .error _ => none

/-- The frame of a table word as it stands in the stream: exactly as many bytes as its opcode byte
says, or the bytes given where that byte is no opcode. -/
def tableFrame (c : Config) (nbits w : Nat) : List Byte :=
  match (rxPeek (paddedTableBytes nbits w)).bind (frameSize c) with
  | some n => (paddedTableBytes nbits w).take n
  | none => tableBytes nbits w

end Sys2Proof
end

