-- ==== Sys2Proof/Machine/State.lean ====
section
/-! DEFINITION. The machine's state: the block's three registers (`10_state.md` rules R10 to R13),
the environment state the block reads or changes (R21 to R24), the inputs still to come
(`00_scope.md` rule R9), and the reasons a step could stop (there are none, R110). -/

namespace Sys2Proof.Machine

/-- A level of a digital pin: `HIGH` or `LOW` (R24). -/
inductive Level where
  | high
  | low
deriving DecidableEq, Repr

/-- The code of a diagnostic. The block has one (R45, D16). -/
inductive DiagCode where
  | pulseIndexOutOfRange
deriving DecidableEq, Repr

/-- What the block tells its collaborators (R23). -/
inductive Event where
  /-- `wd(p, v)`: `write_digital` (R41). -/
  | wd (p : Pin) (v : Byte)
  /-- `wp(p, v)`: `write_pwm` (R42). -/
  | wp (p : Pin) (v : Byte)
  /-- `dg(code, info)`: a report to diagnostics, `info` of 5 bits (R45). -/
  | dg (code : DiagCode) (info : BitVec 5)
deriving DecidableEq, Repr

/-- An event of `TRACE`, with the mark R24 needs to tell `PULSE_HIGH` from the trace: for a write made
by `start` or `tick`, the `TIMED_PULSE` index and the level driven. The mark is the model's own
(log entry 17). Nothing the block does reads it. -/
structure TraceEntry where
  event : Event
  drive : Option (Nat × Level)
deriving DecidableEq, Repr

/-- What the outside world can do between two `service()` calls (R9, R35, R50, R130). -/
inductive Input where
  /-- The producer appends these bytes at the tail of `RX` (R35). -/
  | arrive (bytes : List Byte)
  /-- The reset port is asserted (R50, R130). -/
  | reset
deriving DecidableEq, Repr

/-- The whole state. -/
structure State where
  /-- The instance's constants (R20), carried here so that one `step` is the step of every instance
  (log entry 1). No step writes them. -/
  cfg : Config
  /-- `PENDING` (R11). -/
  pending : Word
  /-- `DURATION` (R12). -/
  duration : Word
  /-- `PHASE_START` (R13). -/
  phaseStart : Word
  /-- `RX`, the unread bytes, head first (R21, R31). -/
  rx : List Byte
  /-- The millisecond clock: the value its last read returned (R22, R44). -/
  clock : Word
  /-- Input: the milliseconds that go by before each of the clock reads to come (R44, D21). -/
  clockIn : List Nat
  /-- The model's own counter for `Config.freeElapsed`: clock reads made without an input
  (log entry 7). -/
  freeReads : Nat
  /-- Input: what happens before each of the `service()` calls to come (R9, R35, D18). -/
  inputs : List (List Input)
  /-- `TRACE`, oldest event first (R23). -/
  trace : List TraceEntry
deriving DecidableEq, Repr

/-- The machine right after reset, in the reference configuration (R28, R130). The registers' values
are the spec's decision D11. The clock's value is unspecified and never sampled before it moves
(log entry 7). -/
def State.reset : State where
  cfg := Config.reference
  pending := 0
  duration := 0
  phaseStart := 0
  rx := []
  clock := 0
  clockIn := []
  freeReads := 0
  inputs := []
  trace := []

/-- Why a step faults: nothing does. "There are no synchronous exceptions and no traps" (R110), "The
block has no fault outcome" (R9). -/
inductive Fault where
deriving DecidableEq, Repr

/-- Why a step is refused. -/
inductive Refusal where
  /-- Raised by `exec` for an instruction without a meaning. Safe. Every instruction has one, so no
  step raises it. -/
  | notModelled (mnemonic : String)
deriving DecidableEq, Repr

end Sys2Proof.Machine
end

