-- ==== Sys2Proof/Machine/Operands.lean ====
section
/-! DEFINITION. The operand primitives: the arithmetic of `00_scope.md` rule R8 and the addressing of
actuators by a bitset (`20_memory.md` rule R46, `41_commands.md` rule R80). -/

namespace Sys2Proof.Machine

/-- The highest set bit of `v` below position `n`. -/
def msbBelow (v : Word) : Nat → Nat
  | 0 => Config.msbOfZero
  | n + 1 => if v.getLsbD n then n else msbBelow v n

/-- `msb(v)` (R8): the index of the highest set bit, a free value at 0 (log entry 16). -/
def msb (v : Word) : Nat := msbBelow v 32

/-- `clear(v, i) = v AND NOT (1 << i)` (R8). -/
def clear (v : Word) (i : Nat) : Word := v &&& ~~~((1 : Word) <<< i)

/-- `elapsed(now, start) = (now - start) mod 2^32` (R8, R93). -/
def elapsed (now start : Word) : Word := now - start

/-- `PIN[i]` of a bank (R46), a free value where index `i` has no slot (log entry 3). -/
def pinOf (b : Bank) (i : Nat) : Pin := (b.pins[i]?).getD (Config.freePin b i)

/-- Bit `i` of the bitset is set and index `i` has a slot (R80). -/
def addresses (b : Bank) (bitset : Word) (i : Nat) : Bool := bitset.getLsbD i && decide (i < b.slots)

/-- The byte the scheduler writes for a level: `HIGH` or `LOW` of the configuration (R5, D4). -/
def levelByte (c : Config) : Level → Byte
  | .high => c.high
  | .low => c.low

/-- `LevelOf(v)` (R24, D5): the level a `write_digital` byte is read as. -/
def levelOf (v : Byte) : Level := if v = 0 then .low else .high

end Sys2Proof.Machine
end

