-- ==== Sys2Proof/Machine/Ops.lean ====
section
/-! DEFINITION. The named operations over the state: register and stream updates, the interface
primitives of `20_memory.md` (R41, R42, R44, R45), the inputs from outside (R35, R130), and the abort of
condition (c), the nearest thing this block has to taking an exception (`60_exceptions.md` rule R119).
There is no exception entry and no return from one (R119, R120). -/

namespace Sys2Proof.Machine

/-! ## Updates -/

/-- `PENDING <- v` (R7). -/
def State.setPending (v : Word) (s : State) : State := { s with pending := v }

/-- `DURATION <- v` (R7). -/
def State.setDuration (v : Word) (s : State) : State := { s with duration := v }

/-- `PHASE_START <- v` (R7). -/
def State.setPhaseStart (v : Word) (s : State) : State := { s with phaseStart := v }

/-- The stream becomes `rx`. -/
def State.setRx (rx : List Byte) (s : State) : State := { s with rx := rx }

/-- Append one event to `TRACE` (R23). -/
def State.emit (e : TraceEntry) (s : State) : State := { s with trace := s.trace ++ [e] }

/-! ## Outputs -/

/-- `PinWriteDigital(p, v)` (R41). `drive` marks a write of the scheduler (log entry 17). -/
def State.pinWriteDigital (p : Pin) (v : Byte) (drive : Option (Nat × Level)) (s : State) : State :=
  s.emit ⟨.wd p v, drive⟩

/-- `PinWritePwm(p, v)` (R42). -/
def State.pinWritePwm (p : Pin) (v : Byte) (s : State) : State := s.emit ⟨.wp p v, none⟩

/-- `Diag(code, info)` (R45). -/
def State.diag (code : DiagCode) (info : BitVec 5) (s : State) : State := s.emit ⟨.dg code info, none⟩

/-- `PinWriteDigital(PIN_TP[i], HIGH)` or `LOW`, as `start` and `tick` call it (R90, R91). -/
def State.pulseDrive (i : Nat) (l : Level) (s : State) : State :=
  s.pinWriteDigital (pinOf s.cfg.bankTP i) (levelByte s.cfg l) (some (i, l))

/-! ## The clock -/

/-- One read of `now_ms()`: the clock has moved on by the next input's milliseconds, modulo `2^32`
(R44, D21), or by a free number of them where no input is left (log entry 7). -/
def State.readClock (s : State) : State :=
  match s.clockIn with
  | d :: later => { s with clock := s.clock + BitVec.ofNat 32 d, clockIn := later }
  | [] => { s with
      clock := s.clock + BitVec.ofNat 32 (Config.freeElapsed s.freeReads)
      freeReads := s.freeReads + 1 }

/-- `Now()` inside `tick` or `start`: afterwards `clock` holds the value it returned. With `once` that is
the sample of this call (R44), with `fresh` a read of its own (D6, R142). -/
def State.now (s : State) : State :=
  match s.cfg.clockSampling with
  | .once => s
  | .fresh => s.readClock

/-! ## The abort -/

/-- The abort of condition (c): `PENDING <- 0`, one diagnostic with the offending index, and nothing
else (R96, R113, R119). -/
def State.abort (index : Nat) (s : State) : State :=
  (s.setPending 0).diag .pulseIndexOutOfRange (BitVec.ofNat 5 index)

/-! ## Inputs -/

/-- Reset of a running machine (R130): the block's registers and `TRACE` take their reset values. The
transport keeps its bytes, the clock runs on, and the instance and the inputs to come stay. -/
def State.assertReset (s : State) : State :=
  { s with pending := 0, duration := 0, phaseStart := 0, trace := [] }

/-- One thing the outside world does (R35, R130). -/
def State.applyInput (s : State) : Input → State
  | .arrive bytes => s.setRx (s.rx ++ bytes)
  | .reset => s.assertReset

/-- Everything the outside world does before the next `service()` call, in order (D18). Where no input
is left, nothing arrives. -/
def State.deliver (s : State) : State :=
  match s.inputs with
  | [] => s
  | before :: later => before.foldl State.applyInput { s with inputs := later }

end Sys2Proof.Machine
end

