-- ==== Sys2Proof/Machine/DirectWrite.lean ====
section
/-! DEFINITION. The two direct-write commands: `41_commands.md` rules R80, R81, R82. -/

namespace Sys2Proof.Machine

/-- The direct-write loop (R80): index 0 first, one write per set bit that has a slot, every other bit
skipped. -/
def directWrite (b : Bank) (bitset : Word) (write : Pin → State → State) (s : State) : State :=
  (List.range 32).foldl (fun s i => if addresses b bitset i then write (pinOf b i) s else s) s

/-- `DIGITAL_WRITE bitset, level` (R81). -/
def execDigitalWrite (bitset : Word) (level : Byte) (s : State) :
    Host.Outcome State Fault Refusal :=
  .next (directWrite s.cfg.bankDW bitset (fun p => State.pinWriteDigital p level none) s)

/-- `PWM_SET bitset, intensity` (R82). -/
def execPwmSet (bitset : Word) (intensity : Byte) (s : State) :
    Host.Outcome State Fault Refusal :=
  .next (directWrite s.cfg.bankPWM bitset (fun p => State.pinWritePwm p intensity) s)

end Sys2Proof.Machine
end

