-- ==== Sys2Proof/Machine/PulseScheduler.lean ====
section
/-! DEFINITION. The pulse scheduler and the command that drives it: `42_pulse_scheduler.md` rules R90
and R91, `41_commands.md` rule R83. -/

namespace Sys2Proof.Machine

/-- The tail `start` and `tick` share (R90 lines 4 to 7, R91 lines 7 to 9): select the highest pending
bit, abort if it has no slot, else drive it HIGH and record when its phase began. -/
def enterPhase (s : State) : State :=
  if s.cfg.bankTP.slots ≤ msb s.pending then s.abort (msb s.pending)
  else
    let u := (s.pulseDrive (msb s.pending) .high).now
    u.setPhaseStart u.clock

/-- Line 2 of `start` (R90, R95): force the in-flight actuator LOW. -/
def cancel (s : State) : State :=
  if s.pending = 0 then s else s.pulseDrive (msb s.pending) .low

/-- `start(bitset, dur)` (R90). -/
def start (bitset dur : Word) (s : State) : State :=
  if bitset = 0 then s
  else enterPhase (((cancel s).setPending bitset).setDuration dur)

/-- Lines 3 to 5 of `tick` (R91): the active actuator's phase is over and paid. -/
def endPhase (s : State) : State :=
  (s.pulseDrive (msb s.pending) .low).setPending (clear s.pending (msb s.pending))

/-- `tick(t)` (R91), where `t`, the sample of this call, stands in `clock`. -/
def tick (s : State) : State :=
  if s.pending = 0 then s
  else if elapsed s.clock s.phaseStart < s.duration then s
  else if (endPhase s).pending = 0 then (endPhase s).setPhaseStart 0
  else enterPhase (endPhase s)

/-- `TIMED_PULSE bitset, duration_ms` (R83). -/
def execTimedPulse (bitset duration : Word) (s : State) : Host.Outcome State Fault Refusal :=
  .next (start bitset duration s)

end Sys2Proof.Machine
end

