-- ==== Sys2Proof/Machine/Dispatch.lean ====
section
/-! DEFINITION. The dispatch of a decoded frame to its handler (`40_service_and_dispatch.md` rules R66 and
R71): a three-way selection. -/

namespace Sys2Proof.Machine

def exec (i : Instr) (s : State) : Host.Outcome State Fault Refusal :=
  match i with
  | .digitalWrite bitset level => Sys2Proof.Machine.execDigitalWrite bitset level s
  | .timedPulse bitset duration => Sys2Proof.Machine.execTimedPulse bitset duration s
  | .pwmSet bitset intensity => Sys2Proof.Machine.execPwmSet bitset intensity s

end Sys2Proof.Machine
end

