-- ==== Sys2Proof/Machine/Service.lean ====
section
/-! DEFINITION. `service()` and `poll_once()`: `40_service_and_dispatch.md` rules R65 and R66. -/

namespace Sys2Proof.Machine

/-- What `poll_once` does with an unknown opcode at the head (R59, R68): nothing, or, under the policy
that D7 only asks about, drop that one byte. -/
def State.meetUnknownOpcode (s : State) : State :=
  match s.cfg.unknownOpcode with
  | .leave => s
  | .discardOne => s.setRx (rxRead 1 s.rx).2

/-- `poll_once()` (R66): decode and dispatch at most one frame. -/
def pollOnce (s : State) : Host.Outcome State Fault Refusal :=
  match decode s.cfg s.rx with
  | .error .noBytes => .next s
  | .error (.unknownOpcode _) => .next s.meetUnknownOpcode
  | .error (.incompleteFrame _ _) => .next s
  | .ok (i, rest) => exec i (s.setRx rest)

/-- `service()` (R65): one clock sample, the scheduler first, then the decoder. -/
def service (s : State) : Host.Outcome State Fault Refusal :=
  pollOnce (tick s.readClock)

end Sys2Proof.Machine
end

