-- ==== Sys2Proof/Machine/Step.lean ====
section
/-! DEFINITION. One step of the model (`00_scope.md` rule R9): what the outside world does between two
calls, then one `service()` call. -/

namespace Sys2Proof.Machine

/-- One step: the inputs due before this call, then `service()` (R9, D18). -/
def step (s : State) : Host.Outcome State Fault Refusal := service s.deliver

/-- The frame of a table word put at the head of the stream, where the next `poll_once` decodes
(log entry 18). -/
def State.withFetchWord (s : State) (nbits w : Nat) : State :=
  s.setRx (tableFrame s.cfg nbits w ++ s.rx)

end Sys2Proof.Machine
end

