-- ==== Sys2Proof/Machine/Flags.lean ====
section
/-! DEFINITION. The block has no status flags and no condition codes (`10_state.md` rule R17), so no
operation computes one. What software of another machine would read from flags is here a value derived
from the state at each use: the scheduler's state (R15), the active actuator (R14), the stall of D24,
and the error condition a `poll_once` meets (`60_exceptions.md` rules R110 and R118). -/

namespace Sys2Proof.Machine

/-- The scheduler's state machine (R15, R97). -/
inductive SchedulerState where
  | idle
  | pulsing (pending duration phaseStart : Word)
deriving DecidableEq, Repr

/-- The scheduler's state, told from `PENDING` alone (R15). -/
def State.scheduler (s : State) : SchedulerState :=
  if s.pending = 0 then .idle else .pulsing s.pending s.duration s.phaseStart

/-- `ACTIVE` (R14): derived, never stored, no value when Idle. -/
def State.active (s : State) : Option Nat :=
  if s.pending = 0 then none else some (msb s.pending)

/-- `Stalled` (D24): the head byte is none of the three opcodes. -/
def State.stalled (s : State) : Bool :=
  match rxPeek s.rx with
  | none => false
  | some op => (opcodeOf s.cfg op).isNone

/-- The closed taxonomy of error conditions, (a) to (d) (R110). -/
inductive Condition where
  /-- (a), R111. -/
  | incompleteFrame
  /-- (b), R112. -/
  | unknownOpcode
  /-- (c), R113. -/
  | outOfRangeIndex
  /-- (d), R114. -/
  | zeroTarget
deriving DecidableEq, Repr

/-- The condition the handler of a command meets: (d) before (c) (R118), (c) for `TIMED_PULSE` alone
(R113). -/
def handlerCondition (c : Config) : Instr → Option Condition
  | .digitalWrite bitset _ => if bitset = 0 then some .zeroTarget else none
  | .pwmSet bitset _ => if bitset = 0 then some .zeroTarget else none
  | .timedPulse bitset _ =>
    if bitset = 0 then some .zeroTarget
    else if c.bankTP.slots ≤ msb bitset then some .outOfRangeIndex
    else none

/-- The condition a `poll_once` meets in this state, the decoder's before the handler's (R118). -/
def State.pollCondition (s : State) : Option Condition :=
  match decode s.cfg s.rx with
  | .error .noBytes => none
  | .error (.unknownOpcode _) => some .unknownOpcode
  | .error (.incompleteFrame _ _) => some .incompleteFrame
  | .ok (i, _) => handlerCondition s.cfg i

end Sys2Proof.Machine
end

