-- ==== Sys2Proof/Machine/Shadow.lean ====
section
/-! DEFINITION. The pin shadow of `10_state.md` rule R24: three functions of the trace, which no rule of
the block reads. -/

namespace Sys2Proof.Machine

/-- `LVL[p]` after one more event. -/
def lvlStep (p : Pin) (old : Option Level) (e : TraceEntry) : Option Level :=
  match e.event with
  | .wd q v => if q = p then some (levelOf v) else old
  | .wp _ _ => old
  | .dg _ _ => old

/-- `LVL[p]` (R24): the level of the last `wd` on `p`, none if there is none. -/
def lvl (trace : List TraceEntry) (p : Pin) : Option Level := trace.foldl (lvlStep p) none

/-- `DUTY[p]` after one more event. -/
def dutyStep (p : Pin) (old : Option Byte) (e : TraceEntry) : Option Byte :=
  match e.event with
  | .wd _ _ => old
  | .wp q v => if q = p then some v else old
  | .dg _ _ => old

/-- `DUTY[p]` (R24): the intensity of the last `wp` on `p`, none if there is none. -/
def duty (trace : List TraceEntry) (p : Pin) : Option Byte := trace.foldl (dutyStep p) none

/-- `PULSE_HIGH` after one more event: a list with no repeats, for a set of indices. -/
def pulseHighStep (high : List Nat) (e : TraceEntry) : List Nat :=
  match e.drive with
  | some (i, .high) => if i ∈ high then high else high ++ [i]
  | some (i, .low) => high.filter (· ≠ i)
  | none => high

/-- `PULSE_HIGH` (R24): the `TIMED_PULSE` indices that `start` or `tick` has driven HIGH and not since
driven LOW. A `DIGITAL_WRITE` to the same pin does not count. -/
def pulseHigh (trace : List TraceEntry) : List Nat := trace.foldl pulseHighStep []

/-- The physical pin an event reaches, by the OPEN `PIN_MAP` (R46, D3). -/
def physicalPin : Event → Option Nat
  | .wd p _ => some (Config.pinMap p)
  | .wp p _ => some (Config.pinMap p)
  | .dg _ _ => none

end Sys2Proof.Machine
end

