-- ==== Sys2Proof/Safety.lean ====
section
/-! DEFINITION. The terms claims are stated in: the invariants of `10_state.md` rules R25 and R26, the
premise of no overflow (`20_memory.md` rule R36), what a step dispatches (`40_service_and_dispatch.md`
rule R72), and the course of a pulse sequence (`42_pulse_scheduler.md` rule R92). -/

namespace Sys2Proof.Machine

/-! ## Invariants -/

/-- Invariant A (R25): every pending bit has a slot. -/
def State.pendingInRange (s : State) : Prop :=
  ∀ i, s.pending.getLsbD i = true → i < s.cfg.bankTP.slots

/-- What `PULSE_HIGH` is between two operations of the scheduler (R26): the active actuator alone, or
nothing. -/
def State.pulseHighIsActive (s : State) : Prop :=
  pulseHigh s.trace = s.active.toList

/-- `PULSE_HIGH` has at most one member at every point of the trace (R26). -/
def State.oneAtATime (s : State) : Prop :=
  ∀ n, (pulseHigh (s.trace.take n)).length ≤ 1

/-- Invariants A and B together. -/
structure State.Inv (s : State) : Prop where
  pendingInRange : s.pendingInRange
  pulseHighIsActive : s.pulseHighIsActive
  oneAtATime : s.oneAtATime

/-! ## Premises on the environment -/

/-- The transport's buffer of `cap` bytes holds everything that stands unread at the next `service()`
(R36, D13). `RX_CAPACITY` is OPEN: a claim that needs it takes `cap` as an argument. -/
def State.noOverflow (cap : Nat) (s : State) : Prop := rxAvailable s.deliver.rx ≤ cap

/-- The bytes the producer appends by a list of inputs. -/
def arrivals : List Input → List Byte
  | [] => []
  | .arrive bytes :: more => bytes ++ arrivals more
  | .reset :: more => arrivals more

/-! ## Runs -/

/-- `n` steps of the machine (R9). -/
def runSteps (n : Nat) (s : State) : Host.Outcome State Fault Refusal := Host.Core.run Sys2Proof.core n s

/-! ## Dispatch -/

/-- The command the next step dispatches, if it dispatches one (R71). -/
def State.dispatched (s : State) : Option Instr :=
  match decode s.deliver.cfg s.deliver.rx with
  | .ok (i, _) => some i
  | .error _ => none

/-- The commands that `n` steps dispatch, in order (R72). -/
def dispatchLog : Nat → State → List Instr
  | 0, _ => []
  | n + 1, s =>
    s.dispatched.toList ++
      match step s with
      | .next t => dispatchLog n t
      | .fault _ => []
      | .refused _ => []

/-! ## Pulse sequences -/

/-- The set bits of a bitset, highest first (R92). -/
def setBitsDescending (v : Word) : List Nat := (List.range 32).reverse.filter fun i => v.getLsbD i

/-- The trace entry of one scheduler write (R23, R41). -/
def pulseEntry (c : Config) (i : Nat) (l : Level) : TraceEntry :=
  ⟨.wd (pinOf c.bankTP i) (levelByte c l), some (i, l)⟩

/-- What the rest of an undisturbed sequence emits once the first of these actuators is HIGH (R92): each
goes LOW, and the next goes HIGH at once. -/
def restOfSequence (c : Config) : List Nat → List TraceEntry
  | [] => []
  | [i] => [pulseEntry c i .low]
  | i :: j :: more => pulseEntry c i .low :: pulseEntry c j .high :: restOfSequence c (j :: more)

/-- One `tick` at each of these clock samples. -/
def tickAt (samples : List Word) (s : State) : State :=
  samples.foldl (fun u t => tick { u with clock := t }) s

/-! ## Comparing states -/

/-- Two states that differ at most in what `DURATION` and `PHASE_START` hold while the scheduler is Idle,
where no rule reads them (R29, U3). -/
def State.sameUpToIdle (s u : State) : Prop :=
  u = { s with duration := u.duration, phaseStart := u.phaseStart } ∧ (s.pending ≠ 0 → u = s)

end Sys2Proof.Machine
end

