-- ==== Sys2Proof/Certificates/Slice0/Obligations.lean ====
section
/-! DEFINITION. The statements for the provers. Each docstring names the rule of the spec it formalises. -/

open Sys2Proof Sys2Proof.Machine

/-! ## Encoding -/

/-- R8: the four arithmetic primitives compute what their lines say, on their domain. -/
def Obligations.ArithmeticPrimitivesCompute : Prop :=
  (∀ b0 b1 b2 b3 : Byte, (be32 b0 b1 b2 b3).toNat =
    b0.toNat * 2 ^ 24 + b1.toNat * 2 ^ 16 + b2.toNat * 2 ^ 8 + b3.toNat) ∧
  (∀ v : Word, v ≠ 0 → msb v < 32 ∧ v.getLsbD (msb v) = true ∧
    ∀ j, msb v < j → v.getLsbD j = false) ∧
  (∀ (v : Word) (i j : Nat), i < 32 → (clear v i).getLsbD j = (v.getLsbD j && decide (j ≠ i))) ∧
  (∀ now start : Word, (elapsed now start).toNat = (now.toNat + 2 ^ 32 - start.toNat) % 2 ^ 32)

/-- R57, and the count of R59: 6, 9 and 6 bytes for the three opcodes, nothing for any other byte, and 253
bytes are other bytes. -/
def Obligations.FrameSizeIsAFunctionOfTheOpcode : Prop :=
  ∀ c : Config, c.opcodesDistinct = true →
    frameSize c c.opcDigitalWrite = some 6 ∧
    frameSize c c.opcTimedPulse = some 9 ∧
    frameSize c c.opcPwmSet = some 6 ∧
    (∀ op : Byte, op ≠ c.opcDigitalWrite → op ≠ c.opcTimedPulse → op ≠ c.opcPwmSet →
      frameSize c op = none) ∧
    ((List.range 256).filter fun k => (frameSize c (BitVec.ofNat 8 k)).isNone).length = 253

/-- A few frames written out byte by byte from R52 to R56 decode to their commands (the opcode bytes are
the spec's decided defaults, D1). -/
def Obligations.WrittenOutFramesDecode : Prop :=
  decode Config.reference [0x01, 0x00, 0x00, 0x00, 0x05, 0x01]
    = .ok (.digitalWrite 0x00000005 0x01, []) ∧
  decode Config.reference [0x02, 0x12, 0x34, 0x56, 0x78, 0x9A, 0xBC, 0xDE, 0xF0, 0x01, 0x00]
    = .ok (.timedPulse 0x12345678 0x9ABCDEF0, [0x01, 0x00]) ∧
  decode Config.reference [0x03, 0x01, 0x00, 0x00, 0x00, 0x10]
    = .ok (.pwmSet 0x01000000 0x10, [])

/-- R52 and R53, last columns: each field is its run of bits of the frame read as one number, first byte
most significant (the opcode bytes are the spec's decided defaults, D1). -/
def Obligations.FieldsAreRunsOfFrameBits : Prop :=
  (∀ w : BitVec 48, w.extractLsb' 40 8 = 0x01#8 → decodeTableWord 48 w.toNat =
    some (.digitalWrite (w.extractLsb' 8 32) (w.extractLsb' 0 8))) ∧
  (∀ w : BitVec 48, w.extractLsb' 40 8 = 0x03#8 → decodeTableWord 48 w.toNat =
    some (.pwmSet (w.extractLsb' 8 32) (w.extractLsb' 0 8))) ∧
  (∀ w : BitVec 72, w.extractLsb' 64 8 = 0x02#8 → decodeTableWord 72 w.toNat =
    some (.timedPulse (w.extractLsb' 32 32) (w.extractLsb' 0 32)))

/-- R62: the byte swap round trip both ways, and decoding an encoded command gives it back, whatever
follows it in the stream, with `FrameSize` of the first byte its length. -/
def Obligations.DecodeOfEncodeIsTheCommand : Prop :=
  (∀ b0 b1 b2 b3 : Byte, enc32 (be32 b0 b1 b2 b3) = [b0, b1, b2, b3]) ∧
  (∀ v : Word, be32 (v.extractLsb' 24 8) (v.extractLsb' 16 8) (v.extractLsb' 8 8) (v.extractLsb' 0 8) = v) ∧
  (∀ v : Word, enc32 v =
    [v.extractLsb' 24 8, v.extractLsb' 16 8, v.extractLsb' 8 8, v.extractLsb' 0 8]) ∧
  ∀ (c : Config) (i : Instr) (rest : List Byte), c.opcodesDistinct = true →
    decode c (encode c i ++ rest) = .ok (i, rest) ∧
    (encode c i).head?.bind (frameSize c) = some (encode c i).length

/-- The other direction: what the decoder accepts is the encoding of what it answers, so no byte of a
frame is dropped and no two byte strings of one length give one command. -/
def Obligations.EncodeOfDecodeIsTheFrame : Prop :=
  ∀ (c : Config) (bytes rest : List Byte) (i : Instr),
    decode c bytes = .ok (i, rest) → encode c i ++ rest = bytes

/-- R46: the pin of a slot is the entry of that opcode's table. -/
def Obligations.SlotPinsComeFromTheTable : Prop :=
  ∀ (b : Bank) (i : Nat), i < b.slots → b.pins[i]? = some (pinOf b i)

/-! ## service, poll_once and the stream -/

/-- R65: one clock sample, then the scheduler, then the decoder, and nothing at all happens in a call that
finds the scheduler Idle and the stream empty, but for the clock's own reading. -/
def Obligations.ServiceTicksThenPolls : Prop :=
  (∀ s : State, service s = pollOnce (tick s.readClock)) ∧
  (∀ s : State, s.pending = 0 → s.rx = [] → service s = .next s.readClock)

/-- When the stream at the next `poll_once` decodes, the step is the command's `exec` on the state after the
inputs, the clock sample and the tick, with the frame consumed. -/
def Obligations.StepRunsTheDecodedCommand : Prop :=
  ∀ (s : State) (i : Instr) (rest : List Byte),
    decode s.deliver.cfg s.deliver.rx = .ok (i, rest) →
    step s = exec i ((tick s.deliver.readClock).setRx rest)

/-- A table word put where the next `poll_once` decodes is the command the next step runs, and exactly its
frame is consumed (`withFetchWord` is the model's own, log entry 18). -/
def Obligations.FetchWordRunsItsCommand : Prop :=
  ∀ (s : State) (nbits w : Nat) (i : Instr), s.cfg = Config.reference → decodeTableWord nbits w = some i →
    step (s.withFetchWord nbits w) =
      exec i ((tick (s.withFetchWord nbits w).deliver.readClock).setRx
        (s.rx ++ arrivals (s.inputs.headD [])))

/-- R66, line by line, under the normative policy for unknown opcodes. -/
def Obligations.PollOnceDecodesAtMostOneFrame : Prop :=
  ∀ s : State, s.cfg.opcodesDistinct = true → s.cfg.unknownOpcode = .leave →
    (s.rx = [] → pollOnce s = .next s) ∧
    (∀ op more, s.rx = op :: more → op ≠ s.cfg.opcDigitalWrite → op ≠ s.cfg.opcTimedPulse →
      op ≠ s.cfg.opcPwmSet → pollOnce s = .next s) ∧
    (∀ op more n, s.rx = op :: more → frameSize s.cfg op = some n → s.rx.length < n →
      pollOnce s = .next s) ∧
    (∀ b1 b2 b3 b4 b5 rest, s.rx = s.cfg.opcDigitalWrite :: b1 :: b2 :: b3 :: b4 :: b5 :: rest →
      pollOnce s = exec (.digitalWrite (be32 b1 b2 b3 b4) b5) (s.setRx rest)) ∧
    (∀ b1 b2 b3 b4 b5 rest, s.rx = s.cfg.opcPwmSet :: b1 :: b2 :: b3 :: b4 :: b5 :: rest →
      pollOnce s = exec (.pwmSet (be32 b1 b2 b3 b4) b5) (s.setRx rest)) ∧
    (∀ b1 b2 b3 b4 b5 b6 b7 b8 rest,
      s.rx = s.cfg.opcTimedPulse :: b1 :: b2 :: b3 :: b4 :: b5 :: b6 :: b7 :: b8 :: rest →
      pollOnce s = exec (.timedPulse (be32 b1 b2 b3 b4) (be32 b5 b6 b7 b8)) (s.setRx rest))

/-- R18: the head of the stream moves by a whole dispatched frame, 6 or 9 bytes, and otherwise not at
all. -/
def Obligations.StreamHeadMovesByWholeFrames : Prop :=
  ∀ s t : State, s.cfg.unknownOpcode = .leave → service s = .next t →
    match decode s.cfg s.rx with
    | .ok (.digitalWrite _ _, _) => 6 ≤ s.rx.length ∧ t.rx = s.rx.drop 6
    | .ok (.timedPulse _ _, _) => 9 ≤ s.rx.length ∧ t.rx = s.rx.drop 9
    | .ok (.pwmSet _ _, _) => 6 ≤ s.rx.length ∧ t.rx = s.rx.drop 6
    | .error _ => t.rx = s.rx

/-- R35: bytes that arrive behind a whole frame change neither its dispatch nor anything else in the call:
they are simply there afterwards. -/
def Obligations.LaterBytesDoNotChangeTheDispatch : Prop :=
  ∀ (s : State) (i : Instr) (rest extra : List Byte), decode s.cfg s.rx = .ok (i, rest) →
    ∃ t, service s = .next t ∧ t.rx = rest ∧
      service (s.setRx (s.rx ++ extra)) = .next (t.setRx (rest ++ extra))

/-- R9, R110: every step of every state answers a next state. -/
def Obligations.EveryStepAnswersANextState : Prop := ∀ s : State, ∃ t, step s = .next t

/-- R20: no step writes the configuration. -/
def Obligations.NoStepWritesTheConfiguration : Prop :=
  ∀ s t : State, step s = .next t → t.cfg = s.cfg

/-- R59, R134, D24: an unknown opcode at the head stalls decoding for ever. Nothing is consumed, no command
is ever dispatched again, whatever arrives and even across resets, and the scheduler still runs. -/
def Obligations.UnknownOpcodeStallsForEver : Prop :=
  ∀ s : State, s.cfg.unknownOpcode = .leave → s.stalled = true →
    pollOnce s = .next s ∧
    step s = .next (tick s.deliver.readClock) ∧
    ∀ n, ∃ t, runSteps n s = .next t ∧ t.stalled = true ∧ s.rx <+: t.rx ∧ dispatchLog n s = []

/-- R71: `k` complete frames need `k` calls. Each of the first `k` dispatches the next frame, and none is
left after them. -/
def Obligations.CompleteFramesDrainOnePerCall : Prop :=
  ∀ (s : State) (is : List Instr) (n : Nat), s.cfg.opcodesDistinct = true → s.inputs = [] →
    s.rx = encodeStream s.cfg is →
    ∃ t, runSteps n s = .next t ∧ t.rx = encodeStream s.cfg (is.drop n) ∧ dispatchLog n s = is.take n

/-- R72: a stream of valid frames delivered in any pieces, one piece before each call, dispatches the same
commands in the same order, and all of them once the pieces are in and enough calls are made. -/
def Obligations.ReassemblyIsTransparent : Prop :=
  ∀ (s : State) (is : List Instr) (pieces : List (List Byte)), s.cfg.opcodesDistinct = true → s.rx = [] →
    s.inputs = pieces.map (fun p => [Input.arrive p]) → pieces.flatten = encodeStream s.cfg is →
    (∀ n, dispatchLog n s <+: is) ∧
    (∀ n, pieces.length + is.length ≤ n → dispatchLog n s = is)

/-- R58: through a transport buffer smaller than 9 bytes no `TIMED_PULSE` is ever dispatched. -/
def Obligations.ShortBufferNeverDispatchesTimedPulse : Prop :=
  ∀ (s : State) (cap : Nat) (b d : Word), cap < 9 → s.noOverflow cap →
    s.dispatched ≠ some (.timedPulse b d)

/-! ## The direct-write commands -/

/-- R80, R81: `DIGITAL_WRITE` completes from every state. It writes the level, unchanged, to every addressed
slot's pin in ascending order, and changes nothing else. -/
def Obligations.DigitalWriteWritesAddressedPins : Prop :=
  ∀ (bitset : Word) (level : Byte) (s : State),
    exec (.digitalWrite bitset level) s = .next { s with
      trace := s.trace ++ (List.range 32).filterMap fun i =>
        if bitset.getLsbD i then (s.cfg.bankDW.pins[i]?).map fun p => ⟨.wd p level, none⟩ else none }

/-- R80, R82: `PWM_SET` completes from every state. It writes the intensity to every addressed slot's pin in
ascending order, and changes nothing else. -/
def Obligations.PwmSetWritesAddressedPins : Prop :=
  ∀ (bitset : Word) (intensity : Byte) (s : State),
    exec (.pwmSet bitset intensity) s = .next { s with
      trace := s.trace ++ (List.range 32).filterMap fun i =>
        if bitset.getLsbD i then (s.cfg.bankPWM.pins[i]?).map fun p => ⟨.wp p intensity, none⟩ else none }

/-- R84, R136: after a direct write exactly the pins of addressed slots show the value written, every other
pin shows what it showed, the other kind of write shows nothing, and the scheduler's registers and
`PULSE_HIGH` are untouched, even on the pin of a running pulse. -/
def Obligations.DirectWritesTouchExactlyTheirPins : Prop :=
  (∀ (bitset : Word) (level : Byte) (s t : State), s.cfg.bankDW.slots ≤ 32 →
    exec (.digitalWrite bitset level) s = .next t →
    (∀ p, (∃ i, bitset.getLsbD i = true ∧ s.cfg.bankDW.pins[i]? = some p) →
      lvl t.trace p = some (levelOf level)) ∧
    (∀ p, (∀ i, bitset.getLsbD i = true → s.cfg.bankDW.pins[i]? ≠ some p) →
      lvl t.trace p = lvl s.trace p) ∧
    (∀ p, duty t.trace p = duty s.trace p) ∧
    pulseHigh t.trace = pulseHigh s.trace ∧ t.scheduler = s.scheduler) ∧
  (∀ (bitset : Word) (intensity : Byte) (s t : State), s.cfg.bankPWM.slots ≤ 32 →
    exec (.pwmSet bitset intensity) s = .next t →
    (∀ p, (∃ i, bitset.getLsbD i = true ∧ s.cfg.bankPWM.pins[i]? = some p) →
      duty t.trace p = some intensity) ∧
    (∀ p, (∀ i, bitset.getLsbD i = true → s.cfg.bankPWM.pins[i]? ≠ some p) →
      duty t.trace p = duty s.trace p) ∧
    (∀ p, lvl t.trace p = lvl s.trace p) ∧
    pulseHigh t.trace = pulseHigh s.trace ∧ t.scheduler = s.scheduler)

/-- R114: a zero target is a valid no-op of every command. The frame is consumed and nothing else
happens (that a `TIMED_PULSE` does not cancel either is the spec's decision D8, log entry 9). -/
def Obligations.ZeroTargetIsANoOp : Prop :=
  ∀ (s : State) (i : Instr) (rest : List Byte), decode s.cfg s.rx = .ok (i, rest) → i.bitset = 0 →
    pollOnce s = .next { s with rx := rest }

/-! ## The pulse scheduler -/

/-- R83, R90 and R95: `TIMED_PULSE` completes from every state, and its next state is that of `start`. A zero
target changes nothing, a running sequence included (that the zero test stands before the cancel is the
spec's decision D8, log entry 9). Otherwise a running sequence's active actuator goes LOW first, and the new
sequence is loaded. If its highest bit has a slot, that actuator goes HIGH and its phase begins at the clock
value `Now()` returns. If not, `PENDING` is cleared and one diagnostic gives the index (that `DURATION` then
holds the new value and `PHASE_START` the old one is decision D9, log entry 10, and the diagnostic's code and
info, which the abort clause pins, are decision D16, log entry 14). -/
def Obligations.TimedPulseStartsCancelsOrAborts : Prop :=
  ∀ (bitset dur : Word) (s : State),
    let cancelled := s.trace
      ++ (if s.pending = 0 then [] else [pulseEntry s.cfg (msb s.pending) .low])
    (bitset = 0 → exec (.timedPulse bitset dur) s = .next s) ∧
    (bitset ≠ 0 → msb bitset < s.cfg.bankTP.slots →
      exec (.timedPulse bitset dur) s = .next { s.now with
        pending := bitset
        duration := dur
        phaseStart := s.now.clock
        trace := cancelled ++ [pulseEntry s.cfg (msb bitset) .high] }) ∧
    (bitset ≠ 0 → s.cfg.bankTP.slots ≤ msb bitset →
      exec (.timedPulse bitset dur) s = .next { s with
        pending := 0
        duration := dur
        trace := cancelled ++ [⟨.dg .pulseIndexOutOfRange (BitVec.ofNat 5 (msb bitset)), none⟩] })

/-- R96: any bit without a slot aborts the whole `TIMED_PULSE`, the bits in range included. Afterwards the
scheduler is Idle, exactly one diagnostic has been added, and no event of the command drives a pin HIGH (the
diagnostic's code and info are decision D16, log entry 14). -/
def Obligations.AnyOutOfRangeBitAbortsTheWholePulse : Prop :=
  ∀ (bitset dur : Word) (s : State), (∃ i, bitset.getLsbD i = true ∧ s.cfg.bankTP.slots ≤ i) →
    ∃ t es, exec (.timedPulse bitset dur) s = .next t ∧ t.scheduler = .idle ∧ t.active = none ∧
      t.trace = s.trace ++ es ∧
      (es.filter fun e => e.drive.isNone).map (·.event)
        = [.dg .pulseIndexOutOfRange (BitVec.ofNat 5 (msb bitset))] ∧
      ∀ e ∈ es, ∀ i, e.drive ≠ some (i, .high)

/-- R91, line by line: what a `tick` does. Nothing in Idle, nothing inside a phase. When the phase is over the
active actuator goes LOW and its bit is cleared, and then the sequence ends, or the next actuator goes HIGH
at once, or (line 8) the sequence aborts (that the end of a sequence and an abort write no more than this is
decisions D9 and D10, log entry 10, and the diagnostic's code and info, which the line 8 clause pins, are
decision D16, log entry 14). -/
def Obligations.TickFollowsItsLines : Prop :=
  ∀ s : State,
    let left := clear s.pending (msb s.pending)
    (s.pending = 0 → tick s = s) ∧
    (s.pending ≠ 0 → elapsed s.clock s.phaseStart < s.duration → tick s = s) ∧
    (s.pending ≠ 0 → s.duration ≤ elapsed s.clock s.phaseStart →
      (left = 0 → tick s = { s with
        pending := 0
        phaseStart := 0
        trace := s.trace ++ [pulseEntry s.cfg (msb s.pending) .low] }) ∧
      (left ≠ 0 → msb left < s.cfg.bankTP.slots → tick s = { s.now with
        pending := left
        phaseStart := s.now.clock
        trace := s.trace
          ++ [pulseEntry s.cfg (msb s.pending) .low, pulseEntry s.cfg (msb left) .high] }) ∧
      (left ≠ 0 → s.cfg.bankTP.slots ≤ msb left → tick s = { s with
        pending := 0
        trace := s.trace
          ++ [pulseEntry s.cfg (msb s.pending) .low,
              ⟨.dg .pulseIndexOutOfRange (BitVec.ofNat 5 (msb left)), none⟩] }))

/-- R98: any number of `tick`s inside a phase, or in Idle, does nothing. Only the clock has moved. -/
def Obligations.TicksInsideAPhaseDoNothing : Prop :=
  ∀ (s : State) (samples : List Word) (t : Word),
    (s.pending = 0 ∨ ∀ u ∈ samples ++ [t], elapsed u s.phaseStart < s.duration) →
    tickAt (samples ++ [t]) s = { s with clock := t }

/-- R93: a running phase goes on exactly while the modular difference is below `DURATION`, clock wrap or
no, and that is exactly while the true time gone by is, as long as that is below `2^32` ms. -/
def Obligations.PhaseEndsByModularTime : Prop :=
  ∀ s : State, s.pending ≠ 0 →
    (tick s = s ↔ (s.clock.toNat + 2 ^ 32 - s.phaseStart.toNat) % 2 ^ 32 < s.duration.toNat) ∧
    (∀ ms : Nat, ms < 2 ^ 32 → s.clock = s.phaseStart + BitVec.ofNat 32 ms →
      (tick s = s ↔ ms < s.duration.toNat))

/-- R99: with duration 0 every `tick` ends the phase, and with the longest duration only a `tick` at one
particular millisecond of each turn of the clock does. -/
def Obligations.ExtremeDurations : Prop :=
  (∀ s : State, s.pending ≠ 0 → s.duration = 0 →
    ∃ more, (tick s).trace = s.trace ++ pulseEntry s.cfg (msb s.pending) .low :: more) ∧
  (∀ s : State, s.pending ≠ 0 → s.duration = 0xFFFFFFFF →
    (tick s ≠ s ↔ s.clock = s.phaseStart + 0xFFFFFFFF))

/-- R101: with every pending bit in range, line 8 of `tick` is dead. A `tick` emits scheduler writes on slots
that exist, at most two, and no diagnostic. -/
def Obligations.TickNeverAborts : Prop :=
  ∀ s : State, s.pendingInRange → ∃ es, (tick s).trace = s.trace ++ es ∧ es.length ≤ 2 ∧
    ∀ e ∈ es, ∃ i l, i < s.cfg.bankTP.slots ∧ e = pulseEntry s.cfg i l

/-- R27, Invariant C: a step that neither is reset nor starts a sequence leaves `PENDING`, or takes its
highest bit away, or clears it on an abort, which only a pending bit without a slot causes. So a bit once
cleared is not set again. -/
def Obligations.PendingOnlyShrinks : Prop :=
  ∀ s t : State, step s = .next t → Input.reset ∉ s.inputs.headD [] →
    (∀ b d, s.dispatched = some (.timedPulse b d) → b = 0) →
    (t.pending = s.pending ∨ t.pending = clear s.pending (msb s.pending) ∨
      ¬ s.pendingInRange ∧ t.pending = 0) ∧
    ∀ i, t.pending.getLsbD i = true → s.pending.getLsbD i = true

/-- R12: `DURATION` is written only by `start`, with the command's field, whenever the target is not zero, an
aborted command included (that an aborted command leaves its value there, and that the end of a sequence keeps
the old one, are decisions D9 and D10, log entry 10: no rule reads the register in Idle, R29 and U3. That a
zero-target command writes nothing is decision D8, log entry 9). -/
def Obligations.DurationIsWrittenOnlyByStart : Prop :=
  ∀ s t : State, step s = .next t → Input.reset ∉ s.inputs.headD [] →
    (∀ b d, s.dispatched = some (.timedPulse b d) → b ≠ 0 → t.duration = d) ∧
    ((∀ b d, s.dispatched = some (.timedPulse b d) → b = 0) → t.duration = s.duration)

/-- R13: with one clock sample per call (decision D6, log entry 6), a step leaves in `PHASE_START` what was
there, or 0, or that call's clock sample (that an abort keeps the old value is decision D9, log entry 10). -/
def Obligations.PhaseStartIsKeptZeroOrTheSample : Prop :=
  ∀ s t : State, s.cfg.clockSampling = .once → step s = .next t →
    t.phaseStart = s.phaseStart ∨ t.phaseStart = 0 ∨ t.phaseStart = t.clock

/-- R74: the `TIMED_PULSE` of a call starts its first phase at that call's one clock sample (decision D6, log
entry 6), and no `tick` of that call ends it. -/
def Obligations.FirstPhaseBeginsAtTheCallsSample : Prop :=
  ∀ (s : State) (b d : Word) (rest : List Byte), s.cfg.clockSampling = .once →
    decode s.deliver.cfg s.deliver.rx = .ok (.timedPulse b d, rest) → b ≠ 0 →
    msb b < s.cfg.bankTP.slots →
    ∃ t, step s = .next t ∧ t.pending = b ∧ t.duration = d ∧
      t.phaseStart = s.deliver.readClock.clock ∧ t.clock = s.deliver.readClock.clock ∧
      t.trace.getLast? = some (pulseEntry s.cfg (msb b) .high)

/-- R92: the events of an undisturbed sequence never leave their order. After any number of calls with no
bytes to decode, whatever the clock did, some of the highest actuators are done, and what has been emitted
followed by what is still owed is the sequence from the highest set bit to the lowest. -/
def Obligations.PulseOrderIsHighestFirst : Prop :=
  ∀ (n : Nat) (s : State), s.pendingInRange → s.rx = [] → s.inputs = [] →
    ∃ t k, runSteps n s = .next t ∧ k ≤ n ∧
      setBitsDescending t.pending = (setBitsDescending s.pending).drop k ∧
      t.trace ++ restOfSequence s.cfg (setBitsDescending t.pending)
        = s.trace ++ restOfSequence s.cfg (setBitsDescending s.pending)

/-- R92, R100: a command with `k` in-range set bits, started from Idle, followed by `k` calls each at least
`DURATION` ms after the one before (as the wrapped clock sees it), emits exactly its `2k` events and is Idle
(what the end leaves in `DURATION` is decision D10, log entry 10). Fewer calls never finish it. -/
def Obligations.PulseSequenceRunsToItsEnd : Prop :=
  ∀ (s : State) (b d : Word) (gaps : List Nat), b ≠ 0 → msb b < s.cfg.bankTP.slots →
    s.pending = 0 → s.cfg.clockSampling = .once → s.rx = [] → s.inputs = [] → s.clockIn = gaps →
    gaps.length ≤ (setBitsDescending b).length → (∀ g ∈ gaps, d.toNat ≤ g % 2 ^ 32) →
    ∃ u t, exec (.timedPulse b d) s = .next u ∧ runSteps gaps.length u = .next t ∧
      (gaps.length < (setBitsDescending b).length → t.pending ≠ 0) ∧
      (gaps.length = (setBitsDescending b).length →
        t.pending = 0 ∧ t.phaseStart = 0 ∧ t.duration = d ∧
        t.trace = s.trace ++ pulseEntry s.cfg (msb b) .high :: restOfSequence s.cfg (setBitsDescending b) ∧
        t.trace.length = s.trace.length + 2 * (setBitsDescending b).length)

/-- The order of R92 is the order of the bits: exactly the set bits, strictly falling, the first of them
`msb`. -/
def Obligations.SetBitsDescendingAreTheSetBits : Prop :=
  ∀ v : Word, (∀ i, i ∈ setBitsDescending v ↔ v.getLsbD i = true) ∧
    (setBitsDescending v).Pairwise (· > ·) ∧
    (v ≠ 0 → (setBitsDescending v).head? = some (msb v))

/-! ## The clock -/

/-- R44: with one sample per call, a step reads the clock once, at its beginning. The sample is the old value
moved on modulo `2^32`, it uses up one input, and it is the value `Now()` gives for the rest of the call (one
sample per call is decision D6, log entry 6, and how the clock moves is decision D21, log entry 7). -/
def Obligations.OneClockSamplePerCall : Prop :=
  ∀ (s t : State) (ms : Nat) (later : List Nat), s.cfg.clockSampling = .once → s.clockIn = ms :: later →
    step s = .next t →
    t.clock.toNat = (s.clock.toNat + ms) % 2 ^ 32 ∧ t.clockIn = later ∧ t.now = t

/-! ## Invariants -/

/-- R25, R26 at reset, and after a reset of any running machine. -/
def Obligations.InvariantHoldsAtReset : Prop :=
  State.reset.Inv ∧ ∀ s : State, s.assertReset.Inv

/-- R25, R26: from every state in which they hold, every `tick`, every `start` and every step keeps the two
invariants: every pending bit has a slot, `PULSE_HIGH` is the active actuator alone or empty, and it never has
two members at any point of the trace, between two events of one call included. -/
def Obligations.StepKeepsTheInvariant : Prop :=
  ∀ s : State, s.Inv →
    (tick s).Inv ∧ (∀ b d t, exec (.timedPulse b d) s = .next t → t.Inv) ∧ ∀ t, step s = .next t → t.Inv

/-- R24: what the three functions of the trace are (that a level byte of 2 to 255 reads as HIGH is decision D5,
log entry 5). -/
def Obligations.ShadowIsTheLastWrite : Prop :=
  (∀ tr p, lvl tr p = none ↔ ∀ e ∈ tr, ∀ v, e.event ≠ .wd p v) ∧
  (∀ before d p v after, (∀ e ∈ after, ∀ w, e.event ≠ .wd p w) →
    lvl (before ++ ⟨.wd p v, d⟩ :: after) p = some (levelOf v)) ∧
  (∀ tr p, duty tr p = none ↔ ∀ e ∈ tr, ∀ v, e.event ≠ .wp p v) ∧
  (∀ before d p v after, (∀ e ∈ after, ∀ w, e.event ≠ .wp p w) →
    duty (before ++ ⟨.wp p v, d⟩ :: after) p = some v) ∧
  (∀ tr i, i ∈ pulseHigh tr ↔ ∃ before e after, tr = before ++ e :: after ∧
    e.drive = some (i, .high) ∧ ∀ f ∈ after, f.drive ≠ some (i, .low)) ∧
  levelOf 0 = .low ∧ ∀ v, v ≠ 0 → levelOf v = .high

/-! ## Whole-machine rules -/

/-- R40, R115: outputs are only outputs. A call appends to the trace and never reads it: with any other past
it does the same and emits the same. -/
def Obligations.OutputsAreNeverReadBack : Prop :=
  ∀ (s : State) (past : List TraceEntry), ∃ t es, service s = .next t ∧ t.trace = s.trace ++ es ∧
    service { s with trace := past } = .next { t with trace := past ++ es }

/-- R29, U3: what `DURATION` and `PHASE_START` hold in Idle can never be seen. Two states that differ only
there stay so for ever, with the same trace, stream and clock. -/
def Obligations.IdleRegistersAreUnobservable : Prop :=
  ∀ s u : State, s.sameUpToIdle u → ∀ n, ∃ t v, runSteps n s = .next t ∧ runSteps n u = .next v ∧
    t.sameUpToIdle v ∧ v.trace = t.trace ∧ v.rx = t.rx ∧ v.pending = t.pending

/-- R142: a call emits a bounded number of events: at most two for the scheduler, and at most the larger
direct-write bank or two for the frame. -/
def Obligations.EventsPerCallAreBounded : Prop :=
  ∀ s t : State, service s = .next t → ∃ es, t.trace = s.trace ++ es ∧
    es.length ≤ 2 + max 2 (max s.cfg.bankDW.slots s.cfg.bankPWM.slots)

/-- R110 to R114 and the order of R118: what each of the four error conditions does (that a zero target does
not cancel is decision D8, log entry 9, and the diagnostic's code and info are decision D16, log entry 14). -/
def Obligations.ErrorConditionsHaveTheirEffects : Prop :=
  ∀ s : State, s.cfg.unknownOpcode = .leave →
    (s.pollCondition = some .incompleteFrame → pollOnce s = .next s) ∧
    (s.pollCondition = some .unknownOpcode → pollOnce s = .next s) ∧
    (s.pollCondition = some .zeroTarget →
      ∃ n, (n = 6 ∨ n = 9) ∧ pollOnce s = .next { s with rx := s.rx.drop n }) ∧
    (s.pollCondition = some .outOfRangeIndex → ∃ b d rest t,
      decode s.cfg s.rx = .ok (.timedPulse b d, rest) ∧ pollOnce s = .next t ∧ t.rx = rest ∧
      t.scheduler = .idle ∧
      t.trace.getLast? = some ⟨.dg .pulseIndexOutOfRange (BitVec.ofNat 5 (msb b)), none⟩)

/-! ## Reset -/

/-- R28 and its vector V-R1: what reset leaves (the values are the spec's decisions D11 and D12, log entries
11 and 12). The next call, at any clock value, does nothing. -/
def Obligations.ResetLeavesTheBlockIdle : Prop :=
  State.reset.pending = 0 ∧ State.reset.duration = 0 ∧ State.reset.phaseStart = 0 ∧
  State.reset.active = none ∧ State.reset.scheduler = .idle ∧
  State.reset.rx = [] ∧ State.reset.trace = [] ∧
  (∀ p, lvl State.reset.trace p = none ∧ duty State.reset.trace p = none) ∧
  pulseHigh State.reset.trace = [] ∧
  (∀ ms, ∃ t, step { State.reset with clockIn := ms } = .next t ∧ t.trace = [] ∧ t.pending = 0 ∧
    t.duration = 0 ∧ t.phaseStart = 0 ∧ t.rx = [])

/-- R130 (the procedure is the spec's decision D11, D12, log entry 12): a reset between two calls clears the
three registers and the trace, emits nothing, and keeps the bytes of the transport. -/
def Obligations.ResetOfARunningMachine : Prop :=
  ∀ (s : State) (bytes : List Byte) (later : List (List Input)),
    s.inputs = [.reset, .arrive bytes] :: later →
    s.deliver = { s with
      pending := 0
      duration := 0
      phaseStart := 0
      trace := []
      rx := s.rx ++ bytes
      inputs := later }
end

