-- ==== Sys2Proof/Laws/Decode.lean ====
section
/-! SUPPORT. Small facts about the field primitives, the opcode map and the decoder. -/

namespace Sys2Proof

@[simp] theorem enc32_length (v : Word) : (enc32 v).length = 4 := rfl

theorem Opcode.size_pos (o : Opcode) : 0 < o.size := by cases o <;> decide

theorem Opcode.size_le (o : Opcode) : o.size ≤ 9 := by cases o <;> decide

/-- What a known opcode byte says about the configuration (R56). -/
theorem opcodeOf_some (c : Config) (op : Byte) (o : Opcode) (h : opcodeOf c op = some o) :
    op = match o with
      | .digitalWrite => c.opcDigitalWrite
      | .timedPulse => c.opcTimedPulse
      | .pwmSet => c.opcPwmSet := by
  unfold opcodeOf at h
  split at h
  · cases h; assumption
  · split at h
    · cases h; assumption
    · split at h
      · cases h; assumption
      · cases h

theorem opcodeOf_none_iff (c : Config) (op : Byte) :
    opcodeOf c op = none ↔
      op ≠ c.opcDigitalWrite ∧ op ≠ c.opcTimedPulse ∧ op ≠ c.opcPwmSet := by
  unfold opcodeOf
  split
  · simp [*]
  · split
    · simp [*]
    · split <;> simp [*]

theorem opcodesDistinct_iff (c : Config) :
    c.opcodesDistinct = true ↔ c.opcDigitalWrite ≠ c.opcTimedPulse ∧
      c.opcDigitalWrite ≠ c.opcPwmSet ∧ c.opcTimedPulse ≠ c.opcPwmSet := by
  simp [Config.opcodesDistinct, and_assoc]

theorem Config.wf_iff (c : Config) :
    c.wf = true ↔ c.opcodesDistinct = true ∧ c.bankDW.slots ≤ 32 ∧ c.bankTP.slots ≤ 32 ∧
      c.bankPWM.slots ≤ 32 := by
  simp [Config.wf, Bank.wf, and_assoc]

/-- What an accepted frame is made of (R66): a known opcode byte, a whole frame, its fields, and the
stream behind it. -/
theorem decode_ok (c : Config) (rx rest : List Byte) (i : Instr) (h : decode c rx = .ok (i, rest)) :
    ∃ op o, rx.head? = some op ∧ opcodeOf c op = some o ∧ o.size ≤ rx.length ∧
      i = decodeFrame o (rx.take o.size) ∧ rest = rx.drop o.size := by
  unfold decode rxPeek at h
  split at h
  · cases h
  · rename_i op hop
    split at h
    · cases h
    · rename_i o ho
      split at h
      · cases h
      · rename_i hlen
        simp only [Except.ok.injEq, Prod.mk.injEq, rxRead] at h
        exact ⟨op, o, hop, ho, by simpa [rxAvailable] using hlen, h.1.symm, h.2.symm⟩

/-- Bytes behind a whole frame only lengthen what is left of the stream (R35). -/
theorem decode_append (c : Config) (rx rest extra : List Byte) (i : Instr)
    (h : decode c rx = .ok (i, rest)) : decode c (rx ++ extra) = .ok (i, rest ++ extra) := by
  obtain ⟨op, o, hop, ho, hlen, rfl, rfl⟩ := decode_ok c rx rest i h
  have hpeek : rxPeek (rx ++ extra) = some op := by
    cases rx with
    | nil => cases hop
    | cons a l => simpa [rxPeek] using hop
  simp only [decode, hpeek, ho, rxAvailable, rxRead, List.length_append]
  rw [if_neg (by omega), List.take_append_of_le_length hlen, List.drop_append_of_le_length hlen]

end Sys2Proof
end

