-- ==== Sys2Proof/Laws/State.lean ====
section
/-! SUPPORT. One lemma per field per update of the state, each true by its definition, so that no later
proof unfolds a record update. Every output operation is rewritten to `emit`, every abort to an `emit`
after `setPending 0`. -/

namespace Sys2Proof.Machine.State

variable (s : State)

/-! ## setPending -/

@[simp] theorem setPending_cfg (v : Word) : (s.setPending v).cfg = s.cfg := rfl
@[simp] theorem setPending_pending (v : Word) : (s.setPending v).pending = v := rfl
@[simp] theorem setPending_duration (v : Word) : (s.setPending v).duration = s.duration := rfl
@[simp] theorem setPending_phaseStart (v : Word) : (s.setPending v).phaseStart = s.phaseStart := rfl
@[simp] theorem setPending_rx (v : Word) : (s.setPending v).rx = s.rx := rfl
@[simp] theorem setPending_clock (v : Word) : (s.setPending v).clock = s.clock := rfl
@[simp] theorem setPending_clockIn (v : Word) : (s.setPending v).clockIn = s.clockIn := rfl
@[simp] theorem setPending_freeReads (v : Word) : (s.setPending v).freeReads = s.freeReads := rfl
@[simp] theorem setPending_inputs (v : Word) : (s.setPending v).inputs = s.inputs := rfl
@[simp] theorem setPending_trace (v : Word) : (s.setPending v).trace = s.trace := rfl

/-! ## setDuration -/

@[simp] theorem setDuration_cfg (v : Word) : (s.setDuration v).cfg = s.cfg := rfl
@[simp] theorem setDuration_pending (v : Word) : (s.setDuration v).pending = s.pending := rfl
@[simp] theorem setDuration_duration (v : Word) : (s.setDuration v).duration = v := rfl
@[simp] theorem setDuration_phaseStart (v : Word) : (s.setDuration v).phaseStart = s.phaseStart := rfl
@[simp] theorem setDuration_rx (v : Word) : (s.setDuration v).rx = s.rx := rfl
@[simp] theorem setDuration_clock (v : Word) : (s.setDuration v).clock = s.clock := rfl
@[simp] theorem setDuration_clockIn (v : Word) : (s.setDuration v).clockIn = s.clockIn := rfl
@[simp] theorem setDuration_freeReads (v : Word) : (s.setDuration v).freeReads = s.freeReads := rfl
@[simp] theorem setDuration_inputs (v : Word) : (s.setDuration v).inputs = s.inputs := rfl
@[simp] theorem setDuration_trace (v : Word) : (s.setDuration v).trace = s.trace := rfl

/-! ## setPhaseStart -/

@[simp] theorem setPhaseStart_cfg (v : Word) : (s.setPhaseStart v).cfg = s.cfg := rfl
@[simp] theorem setPhaseStart_pending (v : Word) : (s.setPhaseStart v).pending = s.pending := rfl
@[simp] theorem setPhaseStart_duration (v : Word) : (s.setPhaseStart v).duration = s.duration := rfl
@[simp] theorem setPhaseStart_phaseStart (v : Word) : (s.setPhaseStart v).phaseStart = v := rfl
@[simp] theorem setPhaseStart_rx (v : Word) : (s.setPhaseStart v).rx = s.rx := rfl
@[simp] theorem setPhaseStart_clock (v : Word) : (s.setPhaseStart v).clock = s.clock := rfl
@[simp] theorem setPhaseStart_clockIn (v : Word) : (s.setPhaseStart v).clockIn = s.clockIn := rfl
@[simp] theorem setPhaseStart_freeReads (v : Word) : (s.setPhaseStart v).freeReads = s.freeReads := rfl
@[simp] theorem setPhaseStart_inputs (v : Word) : (s.setPhaseStart v).inputs = s.inputs := rfl
@[simp] theorem setPhaseStart_trace (v : Word) : (s.setPhaseStart v).trace = s.trace := rfl

/-! ## setRx -/

@[simp] theorem setRx_cfg (r : List Byte) : (s.setRx r).cfg = s.cfg := rfl
@[simp] theorem setRx_pending (r : List Byte) : (s.setRx r).pending = s.pending := rfl
@[simp] theorem setRx_duration (r : List Byte) : (s.setRx r).duration = s.duration := rfl
@[simp] theorem setRx_phaseStart (r : List Byte) : (s.setRx r).phaseStart = s.phaseStart := rfl
@[simp] theorem setRx_rx (r : List Byte) : (s.setRx r).rx = r := rfl
@[simp] theorem setRx_clock (r : List Byte) : (s.setRx r).clock = s.clock := rfl
@[simp] theorem setRx_clockIn (r : List Byte) : (s.setRx r).clockIn = s.clockIn := rfl
@[simp] theorem setRx_freeReads (r : List Byte) : (s.setRx r).freeReads = s.freeReads := rfl
@[simp] theorem setRx_inputs (r : List Byte) : (s.setRx r).inputs = s.inputs := rfl
@[simp] theorem setRx_trace (r : List Byte) : (s.setRx r).trace = s.trace := rfl

/-! ## emit -/

@[simp] theorem emit_cfg (e : TraceEntry) : (s.emit e).cfg = s.cfg := rfl
@[simp] theorem emit_pending (e : TraceEntry) : (s.emit e).pending = s.pending := rfl
@[simp] theorem emit_duration (e : TraceEntry) : (s.emit e).duration = s.duration := rfl
@[simp] theorem emit_phaseStart (e : TraceEntry) : (s.emit e).phaseStart = s.phaseStart := rfl
@[simp] theorem emit_rx (e : TraceEntry) : (s.emit e).rx = s.rx := rfl
@[simp] theorem emit_clock (e : TraceEntry) : (s.emit e).clock = s.clock := rfl
@[simp] theorem emit_clockIn (e : TraceEntry) : (s.emit e).clockIn = s.clockIn := rfl
@[simp] theorem emit_freeReads (e : TraceEntry) : (s.emit e).freeReads = s.freeReads := rfl
@[simp] theorem emit_inputs (e : TraceEntry) : (s.emit e).inputs = s.inputs := rfl
@[simp] theorem emit_trace (e : TraceEntry) : (s.emit e).trace = s.trace ++ [e] := rfl

/-! ## readClock and now -/

@[simp] theorem readClock_cfg : s.readClock.cfg = s.cfg := by
  unfold readClock; split <;> rfl
@[simp] theorem readClock_pending : s.readClock.pending = s.pending := by
  unfold readClock; split <;> rfl
@[simp] theorem readClock_duration : s.readClock.duration = s.duration := by
  unfold readClock; split <;> rfl
@[simp] theorem readClock_phaseStart : s.readClock.phaseStart = s.phaseStart := by
  unfold readClock; split <;> rfl
@[simp] theorem readClock_rx : s.readClock.rx = s.rx := by
  unfold readClock; split <;> rfl
@[simp] theorem readClock_inputs : s.readClock.inputs = s.inputs := by
  unfold readClock; split <;> rfl
@[simp] theorem readClock_trace : s.readClock.trace = s.trace := by
  unfold readClock; split <;> rfl
@[simp] theorem now_cfg : s.now.cfg = s.cfg := by
  unfold now; split <;> simp
@[simp] theorem now_pending : s.now.pending = s.pending := by
  unfold now; split <;> simp
@[simp] theorem now_duration : s.now.duration = s.duration := by
  unfold now; split <;> simp
@[simp] theorem now_phaseStart : s.now.phaseStart = s.phaseStart := by
  unfold now; split <;> simp
@[simp] theorem now_rx : s.now.rx = s.rx := by
  unfold now; split <;> simp
@[simp] theorem now_inputs : s.now.inputs = s.inputs := by
  unfold now; split <;> simp
@[simp] theorem now_trace : s.now.trace = s.trace := by
  unfold now; split <;> simp

/-! ## A clock read passes every other update -/

@[simp] theorem setPending_readClock (v : Word) : (s.setPending v).readClock = s.readClock.setPending v := by
  simp only [readClock, setPending]; split <;> rfl

@[simp] theorem setDuration_readClock (v : Word) : (s.setDuration v).readClock = s.readClock.setDuration v := by
  simp only [readClock, setDuration]; split <;> rfl

@[simp] theorem setPhaseStart_readClock (v : Word) : (s.setPhaseStart v).readClock = s.readClock.setPhaseStart v := by
  simp only [readClock, setPhaseStart]; split <;> rfl

@[simp] theorem setRx_readClock (r : List Byte) : (s.setRx r).readClock = s.readClock.setRx r := by
  simp only [readClock, setRx]; split <;> rfl

@[simp] theorem emit_readClock (e : TraceEntry) : (s.emit e).readClock = s.readClock.emit e := by
  simp only [readClock, emit]; split <;> rfl

@[simp] theorem setPending_now (v : Word) : (s.setPending v).now = s.now.setPending v := by
  simp only [now, setPending_cfg]; split <;> simp

@[simp] theorem setDuration_now (v : Word) : (s.setDuration v).now = s.now.setDuration v := by
  simp only [now, setDuration_cfg]; split <;> simp

@[simp] theorem setPhaseStart_now (v : Word) : (s.setPhaseStart v).now = s.now.setPhaseStart v := by
  simp only [now, setPhaseStart_cfg]; split <;> simp

@[simp] theorem setRx_now (r : List Byte) : (s.setRx r).now = s.now.setRx r := by
  simp only [now, setRx_cfg]; split <;> simp

@[simp] theorem emit_now (e : TraceEntry) : (s.emit e).now = s.now.emit e := by
  simp only [now, emit_cfg]; split <;> simp

theorem readClock_input (d : Nat) (later : List Nat) (h : s.clockIn = d :: later) :
    s.readClock = { s with clock := s.clock + BitVec.ofNat 32 d, clockIn := later } := by
  simp [readClock, h]

theorem now_once (h : s.cfg.clockSampling = .once) : s.now = s := by simp [now, h]

theorem now_fresh (h : s.cfg.clockSampling = .fresh) : s.now = s.readClock := by simp [now, h]

/-! ## The output operations, as `emit` -/

@[simp] theorem pinWriteDigital_eq (p : Pin) (v : Byte) (d : Option (Nat × Level)) :
    s.pinWriteDigital p v d = s.emit ⟨.wd p v, d⟩ := rfl

@[simp] theorem pinWritePwm_eq (p : Pin) (v : Byte) : s.pinWritePwm p v = s.emit ⟨.wp p v, none⟩ := rfl

@[simp] theorem diag_eq (c : DiagCode) (i : BitVec 5) : s.diag c i = s.emit ⟨.dg c i, none⟩ := rfl

@[simp] theorem pulseDrive_eq (i : Nat) (l : Level) : s.pulseDrive i l = s.emit (pulseEntry s.cfg i l) := rfl

@[simp] theorem abort_eq (i : Nat) :
    s.abort i = (s.setPending 0).emit ⟨.dg .pulseIndexOutOfRange (BitVec.ofNat 5 i), none⟩ := rfl

/-! ## Inputs -/

@[simp] theorem assertReset_cfg : s.assertReset.cfg = s.cfg := rfl
@[simp] theorem assertReset_pending : s.assertReset.pending = 0 := rfl
@[simp] theorem assertReset_duration : s.assertReset.duration = 0 := rfl
@[simp] theorem assertReset_phaseStart : s.assertReset.phaseStart = 0 := rfl
@[simp] theorem assertReset_rx : s.assertReset.rx = s.rx := rfl
@[simp] theorem assertReset_clock : s.assertReset.clock = s.clock := rfl
@[simp] theorem assertReset_clockIn : s.assertReset.clockIn = s.clockIn := rfl
@[simp] theorem assertReset_freeReads : s.assertReset.freeReads = s.freeReads := rfl
@[simp] theorem assertReset_inputs : s.assertReset.inputs = s.inputs := rfl
@[simp] theorem assertReset_trace : s.assertReset.trace = [] := rfl

@[simp] theorem applyInput_arrive (bytes : List Byte) :
    s.applyInput (.arrive bytes) = s.setRx (s.rx ++ bytes) := rfl

@[simp] theorem applyInput_reset : s.applyInput .reset = s.assertReset := rfl

@[simp] theorem applyInput_cfg (i : Input) : (s.applyInput i).cfg = s.cfg := by cases i <;> rfl

@[simp] theorem applyInput_inputs (i : Input) : (s.applyInput i).inputs = s.inputs := by cases i <;> rfl

@[simp] theorem applyInput_clock (i : Input) : (s.applyInput i).clock = s.clock := by cases i <;> rfl

@[simp] theorem applyInput_clockIn (i : Input) : (s.applyInput i).clockIn = s.clockIn := by cases i <;> rfl

/-- The transport side of a list of inputs: the instance stays, and the stream grows at its tail by the
bytes that arrive, a reset among them or not (R35, R130). -/
theorem foldl_applyInput (before : List Input) (s : State) :
    (before.foldl applyInput s).cfg = s.cfg ∧ (before.foldl applyInput s).inputs = s.inputs ∧
      (before.foldl applyInput s).rx = s.rx ++ arrivals before := by
  induction before generalizing s with
  | nil => simp [arrivals]
  | cons i more ih => cases i <;> simp [arrivals, ih]

/-- What holds of a state and survives every single input survives all that happens before a call. -/
theorem deliver_keeps (P : State → Prop) (h : P s) (hi : P { s with inputs := s.inputs.tail })
    (keep : ∀ (u : State) (i : Input), P u → P (u.applyInput i)) : P s.deliver := by
  unfold deliver
  cases hs : s.inputs with
  | nil => exact h
  | cons before later =>
    simp only [hs, List.tail_cons] at hi
    show P (before.foldl applyInput { s with inputs := later })
    clear hs h
    generalize ({ s with inputs := later } : State) = u at hi
    induction before generalizing u with
    | nil => exact hi
    | cons i more ih => exact ih (u.applyInput i) (keep u i hi)

@[simp] theorem deliver_cfg : s.deliver.cfg = s.cfg := by
  unfold deliver; split
  · rfl
  · exact (foldl_applyInput _ _).1

@[simp] theorem deliver_inputs : s.deliver.inputs = s.inputs.tail := by
  unfold deliver; split
  · simp [*]
  · rw [(foldl_applyInput _ _).2.1]; simp [*]

/-- The stream the next `poll_once` sees: the bytes of this call's inputs at its tail (R35). -/
theorem deliver_rx : s.deliver.rx = s.rx ++ arrivals (s.inputs.headD []) := by
  unfold deliver; split
  · simp [*, arrivals]
  · rw [(foldl_applyInput _ _).2.2]; simp [*]

theorem deliver_no_input (h : s.inputs = []) : s.deliver = s := by simp [deliver, h]

end Sys2Proof.Machine.State
end

