-- ==== Sys2Proof/Laws/DirectWrite.lean ====
section
/-! SUPPORT. The direct-write loop of `41_commands.md` rule R80 only appends to the trace. -/

namespace Sys2Proof.Machine

/-- A loop that may emit one event per index emits them in the order of the indices. -/
theorem foldl_emit (test : Nat → Bool) (entry : Nat → TraceEntry) (l : List Nat) (s : State) :
    l.foldl (fun u i => if test i then u.emit (entry i) else u) s =
      { s with trace := s.trace ++ (l.filter test).map entry } := by
  induction l generalizing s with
  | nil => simp
  | cons i more ih =>
    rw [List.foldl_cons, ih]
    cases h : test i <;> simp [h, State.emit]

/-- Whatever a direct write does to its pins, as long as it only emits. -/
theorem directWrite_emit (b : Bank) (bitset : Word) (entry : Pin → TraceEntry) (s : State) :
    directWrite b bitset (fun p u => u.emit (entry p)) s =
      { s with trace := s.trace ++
        ((List.range 32).filter (addresses b bitset)).map fun i => entry (pinOf b i) } :=
  foldl_emit (addresses b bitset) (fun i => entry (pinOf b i)) (List.range 32) s

theorem directWrite_digital (b : Bank) (bitset : Word) (level : Byte) (s : State) :
    directWrite b bitset (fun p => State.pinWriteDigital p level none) s =
      { s with trace := s.trace ++
        ((List.range 32).filter (addresses b bitset)).map fun i => ⟨.wd (pinOf b i) level, none⟩ } :=
  directWrite_emit b bitset (fun p => ⟨.wd p level, none⟩) s

theorem directWrite_pwm (b : Bank) (bitset : Word) (intensity : Byte) (s : State) :
    directWrite b bitset (fun p => State.pinWritePwm p intensity) s =
      { s with trace := s.trace ++
        ((List.range 32).filter (addresses b bitset)).map fun i => ⟨.wp (pinOf b i) intensity, none⟩ } :=
  directWrite_emit b bitset (fun p => ⟨.wp p intensity, none⟩) s

end Sys2Proof.Machine
end

