-- ==== Sys2Proof/Laws/Operands.lean ====
section
/-! SUPPORT. What the operand primitives of `00_scope.md` rule R8 compute. -/

namespace Sys2Proof.Machine

theorem msbBelow_zero_bits (v : Word) (n : Nat) (h : ∀ i, i < n → v.getLsbD i = false) :
    msbBelow v n = Config.msbOfZero := by
  induction n with
  | zero => rfl
  | succ n ih =>
    rw [msbBelow, h n (by omega)]
    exact ih fun i hi => h i (by omega)

/-- The highest set bit below `n`, where there is one. -/
theorem msbBelow_spec (v : Word) (n : Nat) (h : ∃ i, i < n ∧ v.getLsbD i = true) :
    msbBelow v n < n ∧ v.getLsbD (msbBelow v n) = true ∧
      ∀ j, msbBelow v n < j → j < n → v.getLsbD j = false := by
  induction n with
  | zero => obtain ⟨i, hi, -⟩ := h; omega
  | succ n ih =>
    rw [msbBelow]
    split
    case isTrue hn => exact ⟨by omega, hn, fun j h1 h2 => by omega⟩
    case isFalse hn =>
      obtain ⟨i, hi, hv⟩ := h
      have hne : i ≠ n := fun e => hn (e ▸ hv)
      obtain ⟨h1, h2, h3⟩ := ih ⟨i, by omega, hv⟩
      refine ⟨by omega, h2, fun j hj hjn => ?_⟩
      rcases Nat.lt_succ_iff_lt_or_eq.mp hjn with hlt | rfl
      · exact h3 j hj hlt
      · simpa using hn

theorem exists_bit_of_ne_zero (v : Word) (h : v ≠ 0) : ∃ i, i < 32 ∧ v.getLsbD i = true := by
  by_contra hc
  apply h
  apply BitVec.eq_of_getLsbD_eq
  intro i hi
  have := fun hv => hc ⟨i, hi, hv⟩
  simpa using this

theorem msb_lt (v : Word) (h : v ≠ 0) : msb v < 32 :=
  (msbBelow_spec v 32 (exists_bit_of_ne_zero v h)).1

theorem getLsbD_msb (v : Word) (h : v ≠ 0) : v.getLsbD (msb v) = true :=
  (msbBelow_spec v 32 (exists_bit_of_ne_zero v h)).2.1

theorem getLsbD_of_msb_lt (v : Word) (h : v ≠ 0) (j : Nat) (hj : msb v < j) : v.getLsbD j = false := by
  by_cases hj32 : j < 32
  · exact (msbBelow_spec v 32 (exists_bit_of_ne_zero v h)).2.2 j hj hj32
  · exact BitVec.getLsbD_of_ge v j (by omega)

theorem le_msb_of_getLsbD (v : Word) (j : Nat) (hj : v.getLsbD j = true) : j ≤ msb v := by
  have h : v ≠ 0 := by rintro rfl; simp at hj
  by_contra hlt
  rw [getLsbD_of_msb_lt v h j (by omega)] at hj
  cases hj

/-- `clear` clears its bit and no other (R8). -/
theorem getLsbD_clear (v : Word) (i j : Nat) (hj : j < 32) :
    (clear v i).getLsbD j = (v.getLsbD j && decide (j ≠ i)) := by
  simp only [clear, BitVec.getLsbD_and, BitVec.getLsbD_not, hj, decide_true, Bool.true_and]
  by_cases h : j = i
  · subst h; simp [hj]
  · rcases Nat.lt_or_ge j i with hlt | hge
    · simp [hj, hlt, h]
    · have : j - i ≠ 0 := by omega
      simp [hj, this, h]

theorem getLsbD_of_clear (v : Word) (i j : Nat) (h : (clear v i).getLsbD j = true) :
    v.getLsbD j = true ∧ j ≠ i := by
  by_cases hj : j < 32
  · simpa [getLsbD_clear v i j hj] using h
  · rw [BitVec.getLsbD_of_ge _ j (by omega)] at h; cases h

/-- What is left after a phase lies strictly below the actuator that was active (R101). -/
theorem msb_clear_lt (v : Word) (h : clear v (msb v) ≠ 0) : msb (clear v (msb v)) < msb v := by
  obtain ⟨h1, h2⟩ := getLsbD_of_clear v _ _ (getLsbD_msb _ h)
  have := le_msb_of_getLsbD v _ h1
  omega

theorem addresses_iff (b : Bank) (bitset : Word) (i : Nat) :
    addresses b bitset i = true ↔ bitset.getLsbD i = true ∧ i < b.slots := by
  simp [addresses]

/-- A slot's pin stands in the bank's table (R46). -/
theorem pinOf_of_lt (b : Bank) (i : Nat) (h : i < b.slots) : pinOf b i = b.pins[i]'h := by
  simp only [Bank.slots] at h
  simp [pinOf, h]

end Sys2Proof.Machine
end

