-- ==== Sys2Proof/Laws/PerInstr.lean ====
section
/-! SUPPORT. The family `EncodeSize`: the frame of every command has the size its opcode says, opcode byte
included (`30_encoding.md` rules R57, R61). -/

namespace Sys2Proof.Laws.EncodeSize

/-- The opcode a command is sent under. -/
def opcode : Instr → Opcode
  | .digitalWrite _ _ => .digitalWrite
  | .timedPulse _ _ => .timedPulse
  | .pwmSet _ _ => .pwmSet

def Statement (i : Instr) : Prop := ∀ c : Config, (encode c i).length = (opcode i).size

theorem digitalWrite (b : Word) (l : Byte) : Statement (.digitalWrite b l) := fun _ => rfl

theorem timedPulse (b d : Word) : Statement (.timedPulse b d) := fun _ => rfl

theorem pwmSet (b : Word) (v : Byte) : Statement (.pwmSet b v) := fun _ => rfl

end Sys2Proof.Laws.EncodeSize
end

