-- ==== Sys2Proof/Laws/PulseScheduler.lean ====
section
/-! SUPPORT. Once and for all: what `start` and `tick` can do (`42_pulse_scheduler.md` rules R90, R91). -/

namespace Sys2Proof.Machine

variable (s : State)

/-- The tail that `start` and `tick` share, where the selected index has a slot. -/
theorem enterPhase_slot (h : msb s.pending < s.cfg.bankTP.slots) :
    enterPhase s =
      (s.now.emit (pulseEntry s.cfg (msb s.pending) .high)).setPhaseStart s.now.clock := by
  unfold enterPhase
  rw [if_neg (by omega)]
  simp

/-- The same tail, where it has none. -/
theorem enterPhase_no_slot (h : s.cfg.bankTP.slots ≤ msb s.pending) :
    enterPhase s = s.abort (msb s.pending) := if_pos h

theorem cancel_idle (h : s.pending = 0) : cancel s = s := if_pos h

theorem cancel_pulsing (h : s.pending ≠ 0) :
    cancel s = s.emit (pulseEntry s.cfg (msb s.pending) .low) := if_neg h

@[simp] theorem cancel_cfg : (cancel s).cfg = s.cfg := by unfold cancel; split <;> rfl

@[simp] theorem cancel_rx : (cancel s).rx = s.rx := by unfold cancel; split <;> rfl

@[simp] theorem cancel_inputs : (cancel s).inputs = s.inputs := by unfold cancel; split <;> rfl

/-- The four things a `tick` can do (R97): nothing when Idle, nothing inside a phase, end the sequence, or
go on to what is left. -/
theorem tick_cases :
    (s.pending = 0 ∧ tick s = s) ∨
    (s.pending ≠ 0 ∧ elapsed s.clock s.phaseStart < s.duration ∧ tick s = s) ∨
    (s.pending ≠ 0 ∧ s.duration ≤ elapsed s.clock s.phaseStart ∧ (endPhase s).pending = 0 ∧
      tick s = (endPhase s).setPhaseStart 0) ∨
    (s.pending ≠ 0 ∧ s.duration ≤ elapsed s.clock s.phaseStart ∧ (endPhase s).pending ≠ 0 ∧
      tick s = enterPhase (endPhase s)) := by
  unfold tick
  split
  · exact .inl ⟨‹_›, rfl⟩
  · split
    · exact .inr (.inl ⟨‹_›, ‹_›, rfl⟩)
    · have hle : s.duration ≤ elapsed s.clock s.phaseStart := BitVec.not_lt.mp ‹_›
      split
      · exact .inr (.inr (.inl ⟨‹_›, hle, ‹_›, rfl⟩))
      · exact .inr (.inr (.inr ⟨‹_›, hle, ‹_›, rfl⟩))

/-- What a finished phase leaves (R91, lines 3 to 5). -/
theorem endPhase_eq : endPhase s =
    (s.emit (pulseEntry s.cfg (msb s.pending) .low)).setPending (clear s.pending (msb s.pending)) := rfl

/-- A non-zero `start`: cancel, load, enter the first phase (R90). -/
theorem start_nonzero (b d : Word) (h : b ≠ 0) :
    start b d s = enterPhase (((cancel s).setPending b).setDuration d) := if_neg h

/-- A zero `start` (R102). -/
theorem start_zero (d : Word) : start 0 d s = s := if_pos rfl

/-! ## What neither touches -/

@[simp] theorem enterPhase_cfg : (enterPhase s).cfg = s.cfg := by unfold enterPhase; split <;> simp

@[simp] theorem enterPhase_rx : (enterPhase s).rx = s.rx := by unfold enterPhase; split <;> simp

@[simp] theorem enterPhase_inputs : (enterPhase s).inputs = s.inputs := by
  unfold enterPhase; split <;> simp

@[simp] theorem enterPhase_duration : (enterPhase s).duration = s.duration := by
  unfold enterPhase; split <;> simp

@[simp] theorem tick_cfg : (tick s).cfg = s.cfg := by
  unfold tick endPhase; split_ifs <;> simp

@[simp] theorem tick_rx : (tick s).rx = s.rx := by
  unfold tick endPhase; split_ifs <;> simp

@[simp] theorem tick_inputs : (tick s).inputs = s.inputs := by
  unfold tick endPhase; split_ifs <;> simp

@[simp] theorem tick_duration : (tick s).duration = s.duration := by
  unfold tick endPhase; split_ifs <;> simp

@[simp] theorem start_cfg (b d : Word) : (start b d s).cfg = s.cfg := by
  unfold start; split_ifs <;> simp

@[simp] theorem start_rx (b d : Word) : (start b d s).rx = s.rx := by
  unfold start; split_ifs <;> simp

@[simp] theorem start_inputs (b d : Word) : (start b d s).inputs = s.inputs := by
  unfold start; split_ifs <;> simp

/-! ## The scheduler neither reads nor writes the stream -/

theorem enterPhase_setRx (r : List Byte) : enterPhase (s.setRx r) = (enterPhase s).setRx r := by
  by_cases h : msb s.pending < s.cfg.bankTP.slots
  · rw [enterPhase_slot s h, enterPhase_slot (s.setRx r) h, State.setRx_now]; rfl
  · rw [enterPhase_no_slot s (by omega), enterPhase_no_slot (s.setRx r) (by simpa using h)]; rfl

theorem cancel_setRx (r : List Byte) : cancel (s.setRx r) = (cancel s).setRx r := by
  by_cases h : s.pending = 0
  · rw [cancel_idle s h, cancel_idle (s.setRx r) h]
  · rw [cancel_pulsing s h, cancel_pulsing (s.setRx r) h]; rfl

theorem start_setRx (b d : Word) (r : List Byte) : start b d (s.setRx r) = (start b d s).setRx r := by
  by_cases h : b = 0
  · subst h; rw [start_zero, start_zero]
  · rw [start_nonzero _ b d h, start_nonzero _ b d h, cancel_setRx, ← enterPhase_setRx]; rfl

theorem tick_setRx (r : List Byte) : tick (s.setRx r) = (tick s).setRx r := by
  have he : endPhase (s.setRx r) = (endPhase s).setRx r := rfl
  obtain ⟨hp, h⟩ | ⟨hp, ht, h⟩ | ⟨hp, ht, hz, h⟩ | ⟨hp, ht, hz, h⟩ := tick_cases s <;> rw [h]
  · exact if_pos hp
  · exact (if_neg hp).trans (if_pos ht)
  · exact (if_neg hp).trans ((if_neg (BitVec.not_lt.mpr ht)).trans (if_pos hz))
  · rw [← enterPhase_setRx, ← he]
    exact (if_neg hp).trans ((if_neg (BitVec.not_lt.mpr ht)).trans (if_neg hz))

end Sys2Proof.Machine
end

