-- ==== Sys2Proof/Laws/Service.lean ====
section
/-! SUPPORT. Once and for all: what `poll_once`, `service` and a step can do
(`40_service_and_dispatch.md` rules R65, R66). -/

namespace Sys2Proof.Machine

theorem core_run_succ (M : Host.Core) (n : Nat) (s t : M.State) (h : M.step s = .next t) :
    M.run (n + 1) s = M.run n t := by
  rw [Host.Core.run, h]

theorem runSteps_zero (s : State) : runSteps 0 s = .next s := rfl

theorem runSteps_succ (n : Nat) (s t : State) (h : step s = .next t) : runSteps (n + 1) s = runSteps n t :=
  core_run_succ Sys2Proof.core n s t h

theorem dispatchLog_succ (n : Nat) (s t : State) (h : step s = .next t) :
    dispatchLog (n + 1) s = s.dispatched.toList ++ dispatchLog n t := by
  rw [dispatchLog, h]

/-- The four things a `poll_once` can do (R66). -/
theorem pollOnce_cases (s : State) :
    (decode s.cfg s.rx = .error .noBytes ∧ pollOnce s = .next s) ∨
    (∃ op, decode s.cfg s.rx = .error (.unknownOpcode op) ∧ pollOnce s = .next s.meetUnknownOpcode) ∨
    (∃ op n, decode s.cfg s.rx = .error (.incompleteFrame op n) ∧ pollOnce s = .next s) ∨
    (∃ i rest, decode s.cfg s.rx = .ok (i, rest) ∧ pollOnce s = exec i (s.setRx rest)) := by
  unfold pollOnce
  split
  · exact .inl ⟨‹_›, rfl⟩
  · exact .inr (.inl ⟨_, ‹_›, rfl⟩)
  · exact .inr (.inr (.inl ⟨_, _, ‹_›, rfl⟩))
  · exact .inr (.inr (.inr ⟨_, _, ‹_›, rfl⟩))

/-- The next state of a command: a direct write's, which only appends to the trace, or `start`'s. -/
theorem exec_next (i : Instr) (s t : State) (h : exec i s = .next t) :
    (∃ b l, i = .digitalWrite b l ∧ t = { s with trace := s.trace ++
      ((List.range 32).filter (addresses s.cfg.bankDW b)).map fun k =>
          ⟨.wd (pinOf s.cfg.bankDW k) l, none⟩ }) ∨
    (∃ b d, i = .timedPulse b d ∧ t = start b d s) ∨
    (∃ b v, i = .pwmSet b v ∧ t = { s with trace := s.trace ++
      ((List.range 32).filter (addresses s.cfg.bankPWM b)).map fun k =>
          ⟨.wp (pinOf s.cfg.bankPWM k) v, none⟩ }) := by
  cases i with
  | digitalWrite b l =>
    simp only [exec, execDigitalWrite, directWrite_digital, Host.Outcome.next.injEq] at h
    exact .inl ⟨b, l, rfl, h.symm⟩
  | timedPulse b d =>
    simp only [exec, execTimedPulse, Host.Outcome.next.injEq] at h
    exact .inr (.inl ⟨b, d, rfl, h.symm⟩)
  | pwmSet b v =>
    simp only [exec, execPwmSet, directWrite_pwm, Host.Outcome.next.injEq] at h
    exact .inr (.inr ⟨b, v, rfl, h.symm⟩)

/-- The three ways a step can end: nothing dispatched and the stream left as it is, an unknown opcode met, or
a command run on the ticked state with its frame consumed. -/
theorem step_cases (s : State) :
    (s.dispatched = none ∧ step s = .next (tick s.deliver.readClock)) ∨
    (s.dispatched = none ∧ step s = .next (tick s.deliver.readClock).meetUnknownOpcode) ∨
    (∃ i rest, s.dispatched = some i ∧ decode s.cfg s.deliver.rx = .ok (i, rest) ∧
      step s = exec i ((tick s.deliver.readClock).setRx rest)) := by
  unfold State.dispatched
  obtain ⟨d, h⟩ | ⟨_, d, h⟩ | ⟨_, _, d, h⟩ | ⟨i, rest, d, h⟩ := pollOnce_cases (tick s.deliver.readClock) <;>
    simp only [tick_cfg, tick_rx, State.readClock_cfg, State.readClock_rx, State.deliver_cfg] at d <;>
    simp only [State.deliver_cfg, d]
  · exact .inl ⟨trivial, h⟩
  · exact .inr (.inl ⟨trivial, h⟩)
  · exact .inl ⟨trivial, h⟩
  · exact .inr (.inr ⟨i, rest, rfl, rfl, h⟩)

/-- No command changes the instance, the stream or the inputs to come. -/
theorem exec_next_env (i : Instr) (s t : State) (h : exec i s = .next t) :
    t.cfg = s.cfg ∧ t.rx = s.rx ∧ t.inputs = s.inputs := by
  obtain ⟨b, l, -, rfl⟩ | ⟨b, d, -, rfl⟩ | ⟨b, v, -, rfl⟩ := exec_next i s t h <;> simp [start_cfg]

end Sys2Proof.Machine
end

