-- ==== Sys2Proof/Tests/Slice0.lean ====
section
/-! SUPPORT. The model's own tests. Expected results are the vectors of `95_test_vectors.md` and the worked
examples of the rules named, each test says which. The last part shows, for every statement with hypotheses,
a state and operands that meet them. -/

namespace Sys2Proof.Tests

open Sys2Proof.Machine

/-! ## Helpers -/

/-- The reset machine with these bytes in the stream and this clock sample for the next call. -/
def withBytes (rx : List Byte) (t : Nat) : State := { State.reset with rx := rx, clockIn := [t] }

/-- A running sequence, about to be called at clock value `t`. -/
def pulsing (pending duration phaseStart : Word) (t : Nat) (rx : List Byte) : State :=
  { withBytes rx t with pending := pending, duration := duration, phaseStart := phaseStart }

def nextOf : Host.Outcome State Fault Refusal → Option State
  | .next s => some s
  | .fault _ => none
  | .refused _ => none

/-- What a vector's row shows: the events of the trace, the registers, and the stream. -/
def seen (o : Host.Outcome State Fault Refusal) :
    Option (List Event × (Word × Word × Word) × List Byte) :=
  (nextOf o).map fun s => (s.trace.map (·.event), (s.pending, s.duration, s.phaseStart), s.rx)

def wd (i : Nat) (v : Byte) : Event := .wd (.dig i) v
def wp (i : Nat) (v : Byte) : Event := .wp (.pwm i) v
def dg (i : BitVec 5) : Event := .dg .pulseIndexOutOfRange i

/-! ## Well-formedness: one ill-formed term for each check -/

theorem test_wf_reference : Config.reference.wf = true := by decide

theorem test_wf_refuses_dw_tp : { Config.reference with opcTimedPulse := 0x01 }.wf = false := by decide

theorem test_wf_refuses_dw_pwm : { Config.reference with opcPwmSet := 0x01 }.wf = false := by decide

theorem test_wf_refuses_tp_pwm : { Config.reference with opcPwmSet := 0x02 }.wf = false := by decide

theorem test_wf_refuses_big_dw : { Config.reference with bankDW := ⟨List.replicate 33 (.dig 0)⟩ }.wf = false := by
  decide

theorem test_wf_refuses_big_tp : { Config.reference with bankTP := ⟨List.replicate 33 (.dig 0)⟩ }.wf = false := by
  decide

theorem test_wf_refuses_big_pwm : { Config.reference with bankPWM := ⟨List.replicate 33 (.pwm 0)⟩ }.wf = false := by
  decide

/-- No field value of a command is ill formed (R60), so there is no ill-formed command to refuse. -/
theorem test_wf_every_command (i : Instr) : i.wf = true := by cases i <;> rfl

/-! ## Decoding: words written out from R52, R53, R56 and the opcode table -/

/-- V-E1. -/
theorem test_decode_digitalWrite :
    decodeTableWord 48 0x010000000501 = some (.digitalWrite 0x00000005 1) := by decide

/-- V-E5. -/
theorem test_decode_timedPulse :
    decodeTableWord 72 0x02123456789ABCDEF0 = some (.timedPulse 0x12345678 0x9ABCDEF0) := by decide

/-- V-E6. -/
theorem test_decode_pwmSet :
    decodeTableWord 48 0x030000003F80 = some (.pwmSet 0x0000003F 128) := by decide

/-- The byte order check behind V-E6: bit 24, not bit 0. -/
theorem test_decode_big_endian :
    decodeTableWord 48 0x030100000010 = some (.pwmSet 0x01000000 0x10) := by decide

/-- Bytes 0x00, 0x04 and 0xFF are unknown opcodes (R59). -/
theorem test_decode_unknown : decodeTableWord 48 0 = none ∧ decodeTableWord 48 0x040000000501 = none ∧
    decodeTableWord 48 0xFF0000000501 = none := by decide

/-- The opcode byte alone: every operand byte is 0. -/
theorem test_decode_short_word : decodeTableWord 8 0x02 = some (.timedPulse 0 0) := by decide

/-- V-E2 and V-E4, encoded. -/
theorem test_encode :
    encode Config.reference (.digitalWrite 0x80000021 0) = [0x01, 0x80, 0x00, 0x00, 0x21, 0x00] ∧
    encode Config.reference (.timedPulse 0x00000001 256)
      = [0x02, 0x00, 0x00, 0x00, 0x01, 0x00, 0x00, 0x01, 0x00] := by decide

/-- A fetched word is run by the very next step. -/
theorem test_withFetchWord :
    (nextOf (step (State.reset.withFetchWord 48 0x010000000501))).map
      (fun s => (s.trace.map (·.event), s.rx)) = some ([wd 0 1, wd 2 1], []) := by decide

/-! ## The arithmetic of R8 -/

/-- V-A1, V-A7, V-A9, V-A12. -/
theorem test_primitives : be32 0x12 0x34 0x56 0x78 = 0x12345678 ∧ msb 0x80000001 = 31 ∧
    clear 0x00000015 4 = 0x00000005 ∧ elapsed 0x0000000F 0xFFFFFFF0 = 0x0000001F := by decide

/-! ## The decoder -/

/-- V-D4: 8 of 9 bytes. -/
theorem test_incomplete : seen (step (withBytes [2, 0, 0, 0, 5, 0, 0, 0] 0))
    = some ([], (0, 0, 0), [2, 0, 0, 0, 5, 0, 0, 0]) := by decide

/-- V-D7: an unknown opcode before a whole frame. -/
theorem test_stall : seen (step (withBytes [0, 1, 0, 0, 0, 1, 1] 0))
    = some ([], (0, 0, 0), [0, 1, 0, 0, 0, 1, 1]) := by decide

/-- V-D6, first call: one frame per call. -/
theorem test_one_frame : seen (step (withBytes [1, 0, 0, 0, 1, 1, 1, 0, 0, 0, 1, 0] 0))
    = some ([wd 0 1], (0, 0, 0), [1, 0, 0, 0, 1, 0]) := by decide

/-- P3, second call: the rest of F1 arrives behind its first four bytes. -/
theorem test_reassembly :
    seen (step { withBytes [2, 0, 0, 0] 110 with inputs := [[.arrive [0x0A, 0, 0, 0, 0x28, 2, 0]]] })
      = some ([wd 3 1], (0xA, 40, 110), [2, 0]) := by decide

/-! ## The commands -/

/-- V-W3: bits 5 and 31 have no slot. -/
theorem test_digitalWrite_out_of_range :
    seen (step (withBytes [1, 0x80, 0, 0, 0x21, 0] 0)) = some ([wd 0 0], (0, 0, 0), []) := by decide

/-- V-W5: a level outside 0 and 1 is passed through, and read as HIGH. -/
theorem test_digitalWrite_level :
    seen (step (withBytes [1, 0, 0, 0, 1, 0xFF] 0)) = some ([wd 0 0xFF], (0, 0, 0), []) ∧
    (nextOf (step (withBytes [1, 0, 0, 0, 1, 0xFF] 0))).map (fun s => lvl s.trace (.dig 0))
      = some (some .high) := by decide

/-- V-W8: ascending, six slots. -/
theorem test_pwmSet_all : seen (step (withBytes [3, 0xFF, 0xFF, 0xFF, 0xFF, 0] 0))
    = some ([wp 0 0, wp 1 0, wp 2 0, wp 3 0, wp 4 0, wp 5 0], (0, 0, 0), []) := by decide

/-- V-W7: bit 6 has no slot. -/
theorem test_pwmSet_out_of_range :
    seen (step (withBytes [3, 0, 0, 0, 0x40, 0xFF] 0)) = some ([], (0, 0, 0), []) := by decide

/-- V-P5, second call: cancel LOW, then HIGH on the same pin. -/
theorem test_timedPulse_cancel : seen (step (pulsing 0x4 100 0 10 [2, 0, 0, 0, 6, 0, 0, 0, 0x14]))
    = some ([wd 2 0, wd 2 1], (0x6, 20, 10), []) := by decide

/-- P3, call at 200: cancel, then abort, with the old `PHASE_START` kept. -/
theorem test_timedPulse_abort :
    seen (step (pulsing 0x4 300 130 200 [2, 0x80, 0, 0, 1, 0, 0, 0, 0x0A, 0x7F]))
      = some ([wd 2 0, dg 31], (0, 10, 130), [0x7F]) := by decide

/-! ## The scheduler -/

/-- S-B, call at 50: the boundary ends the phase, and the next begins with no gap. -/
theorem test_tick_next_phase :
    seen (step (pulsing 0x5 50 0 50 [])) = some ([wd 2 0, wd 0 1], (0x1, 50, 50), []) := by decide

/-- V-P2: across the clock wrap nothing at 31 ms, the end at 32 ms. -/
theorem test_tick_wrap : seen (step (pulsing 0x1 32 0xFFFFFFF0 0x0000000F [])) = some ([], (0x1, 32, 0xFFFFFFF0), []) ∧
    seen (step (pulsing 0x1 32 0xFFFFFFF0 0x00000010 [])) = some ([wd 0 0], (0, 32, 0), []) := by decide

/-- P4, call at `0xFFFFFFFF`: a zero target neither cancels nor loads `DURATION`. -/
theorem test_zero_target : seen (step (pulsing 0x3 32 0xFFFFFFF0 0xFFFFFFFF [2, 0, 0, 0, 0, 0, 0, 0, 5]))
    = some ([], (0x3, 32, 0xFFFFFFF0), []) := by decide

/-- R130: a reset in the middle of a sequence clears the registers and the trace and keeps the bytes. -/
theorem test_reset : seen (step { pulsing 0x3 32 5 9 [7] with inputs := [[.reset]] })
    = some ([], (0, 0, 0), [7]) := by decide

/-- D6, the `fresh` sampling: `Now()` in `start` reads the clock again. -/
theorem test_fresh_sampling :
    seen (step { withBytes [2, 0, 0, 0, 1, 0, 0, 0, 5] 0 with
      clockIn := [7, 2], cfg := { Config.reference with clockSampling := .fresh } })
      = some ([wd 0 1], (0x1, 5, 9), []) := by decide

/-! ## Witnesses: every hypothesis can be met -/

def frame1 : List Byte := [1, 0, 0, 0, 5, 1]
def frame2 : List Byte := [2, 0, 0, 0, 5, 0, 0, 0, 50]
def frame3 : List Byte := [3, 0, 0, 0, 10, 200]

theorem witness_ArithmeticPrimitivesCompute : (0x80000000 : Word) ≠ 0 ∧ (31 : Nat) < 32 := by decide

theorem witness_opcodesDistinct : Config.reference.opcodesDistinct = true ∧
    ∃ op : Byte, op ≠ Config.reference.opcDigitalWrite ∧ op ≠ Config.reference.opcTimedPulse ∧
      op ≠ Config.reference.opcPwmSet := ⟨by decide, 0x04, by decide⟩

theorem witness_FieldsAreRunsOfFrameBits :
    (0x010000000501#48).extractLsb' 40 8 = 0x01#8 ∧ (0x0300000000FF#48).extractLsb' 40 8 = 0x03#8 ∧
      (0x020000000500000032#72).extractLsb' 64 8 = 0x02#8 := by decide

theorem witness_EncodeOfDecodeIsTheFrame :
    decode Config.reference (frame3 ++ [9]) = .ok (.pwmSet 10 200, [9]) := by decide

theorem witness_SlotPinsComeFromTheTable : 5 < Config.reference.bankPWM.slots := by decide

theorem witness_ServiceTicksThenPolls : State.reset.pending = 0 ∧ State.reset.rx = [] := by decide

theorem witness_StepRunsTheDecodedCommand :
    decode (withBytes frame2 7).deliver.cfg (withBytes frame2 7).deliver.rx
      = .ok (.timedPulse 5 50, []) := by decide

theorem witness_FetchWordRunsItsCommand : State.reset.cfg = Config.reference ∧
    decodeTableWord 72 0x020000000500000032 = some (.timedPulse 5 50) := by decide

theorem witness_PollOnceDecodesAtMostOneFrame :
    State.reset.cfg.opcodesDistinct = true ∧ State.reset.cfg.unknownOpcode = .leave ∧ State.reset.rx = [] ∧
    (∃ more, (withBytes [4, 1] 0).rx = 4 :: more) ∧
    (frameSize Config.reference 2 = some 9 ∧ (withBytes (frame2.take 8) 0).rx.length < 9) ∧
    (∃ b1 b2 b3 b4 b5 rest, (withBytes frame1 0).rx
      = Config.reference.opcDigitalWrite :: b1 :: b2 :: b3 :: b4 :: b5 :: rest) ∧
    (∃ b1 b2 b3 b4 b5 rest, (withBytes frame3 0).rx
      = Config.reference.opcPwmSet :: b1 :: b2 :: b3 :: b4 :: b5 :: rest) ∧
    (∃ b1 b2 b3 b4 b5 b6 b7 b8 rest, (withBytes frame2 0).rx
      = Config.reference.opcTimedPulse :: b1 :: b2 :: b3 :: b4 :: b5 :: b6 :: b7 :: b8 :: rest) :=
  ⟨by decide, by decide, by decide, ⟨_, rfl⟩, by decide, ⟨_, _, _, _, _, _, rfl⟩, ⟨_, _, _, _, _, _, rfl⟩,
    ⟨_, _, _, _, _, _, _, _, _, rfl⟩⟩

/-- For the statements over every state whose step or call answers next. -/
theorem witness_service_answers : (nextOf (service (withBytes frame1 3))).isSome = true ∧
    (nextOf (step (withBytes frame1 3))).isSome = true ∧
    (withBytes frame1 3).cfg.unknownOpcode = .leave := by decide

theorem witness_LaterBytesDoNotChangeTheDispatch :
    decode (withBytes frame1 3).cfg (withBytes frame1 3).rx = .ok (.digitalWrite 5 1, []) := by decide

theorem witness_UnknownOpcodeStallsForEver : (withBytes [0x7F, 1] 0).cfg.unknownOpcode = .leave ∧
    (withBytes [0x7F, 1] 0).stalled = true := by decide

theorem witness_CompleteFramesDrainOnePerCall : (withBytes (frame1 ++ frame2) 0).inputs = [] ∧
    (withBytes (frame1 ++ frame2) 0).rx
      = encodeStream Config.reference [.digitalWrite 5 1, .timedPulse 5 50] := by decide

theorem witness_ReassemblyIsTransparent :
    State.reset.rx = [] ∧
    { State.reset with inputs := [[.arrive [1, 0]], [.arrive [0, 0, 5, 1]]] }.inputs
      = [[1, 0], [0, 0, 5, 1]].map (fun p => [Input.arrive p]) ∧
    [[1, 0], [0, 0, 5, 1]].flatten = encodeStream Config.reference [.digitalWrite 5 1] := by decide

theorem witness_ShortBufferNeverDispatchesTimedPulse : (withBytes frame1 0).noOverflow 8 := by
  show rxAvailable (withBytes frame1 0).deliver.rx ≤ 8
  decide

theorem witness_DirectWritesTouchExactlyTheirPins :
    State.reset.cfg.bankDW.slots ≤ 32 ∧ State.reset.cfg.bankPWM.slots ≤ 32 ∧
    ((5 : Word).getLsbD 2 = true ∧ State.reset.cfg.bankDW.pins[2]? = some (.dig 2)) ∧
    ((10 : Word).getLsbD 3 = true ∧ State.reset.cfg.bankPWM.pins[3]? = some (.pwm 3)) ∧
    (nextOf (exec (.digitalWrite 5 1) State.reset)).isSome = true ∧
    (nextOf (exec (.pwmSet 10 200) State.reset)).isSome = true := by decide

/-- A pin that no set bit addresses. -/
theorem witness_unaddressed_pin :
    ∀ i, (1 : Word).getLsbD i = true → State.reset.cfg.bankDW.pins[i]? ≠ some (.dig 4) := by
  intro i h
  have hi : i = 0 := by
    rcases Nat.lt_or_ge i 32 with hlt | hge
    · revert h; revert i; decide
    · rw [BitVec.getLsbD_of_ge _ i hge] at h; cases h
  subst hi; decide

theorem witness_ZeroTargetIsANoOp : decode Config.reference [2, 0, 0, 0, 0, 0, 0, 0, 5] = .ok (.timedPulse 0 5, []) ∧
    (Instr.timedPulse 0 5).bitset = 0 := by decide

/-- The three clauses of `start` at the edge of the bank: bit 4 is the last slot, bit 5 the first without
one (V-P9). -/
theorem witness_TimedPulseStartsCancelsOrAborts :
    ((0x10 : Word) ≠ 0 ∧ msb 0x10 < State.reset.cfg.bankTP.slots) ∧
    ((0x20 : Word) ≠ 0 ∧ State.reset.cfg.bankTP.slots ≤ msb 0x20) := by decide

theorem witness_AnyOutOfRangeBitAbortsTheWholePulse :
    (0x80000001 : Word).getLsbD 31 = true ∧ State.reset.cfg.bankTP.slots ≤ 31 := by decide

/-- The clauses of `tick`: inside a phase, the last phase, a next phase, and a next index without a slot
(which needs a state outside R25's invariant). -/
theorem witness_TickFollowsItsLines :
    ((pulsing 1 50 0 0 []).pending ≠ 0 ∧
      elapsed (pulsing 1 50 0 0 []).clock (pulsing 1 50 0 0 []).phaseStart < (pulsing 1 50 0 0 []).duration) ∧
    ((pulsing 1 0 0 0 []).duration ≤ elapsed (pulsing 1 0 0 0 []).clock (pulsing 1 0 0 0 []).phaseStart ∧
      clear 1 (msb 1) = 0) ∧
    (clear 5 (msb 5) ≠ 0 ∧ msb (clear 5 (msb 5)) < Config.reference.bankTP.slots) ∧
    (clear 0xC0 (msb 0xC0) ≠ 0 ∧ Config.reference.bankTP.slots ≤ msb (clear 0xC0 (msb 0xC0))) := by decide

theorem witness_TicksInsideAPhaseDoNothing :
    (∀ u ∈ [10, 20] ++ [(49 : Word)], elapsed u (pulsing 5 50 0 0 []).phaseStart < (pulsing 5 50 0 0 []).duration) ∧
    State.reset.pending = 0 := by
  refine ⟨fun u hu => ?_, by decide⟩
  simp only [List.cons_append, List.nil_append, List.mem_cons, List.not_mem_nil, or_false] at hu
  rcases hu with rfl | rfl | rfl <;> decide

theorem witness_PhaseEndsByModularTime : (pulsing 1 32 0xFFFFFFF0 0 []).pending ≠ 0 ∧
    { pulsing 1 32 0xFFFFFFF0 0 [] with clock := 0x0000000F }.clock
      = (pulsing 1 32 0xFFFFFFF0 0 []).phaseStart + BitVec.ofNat 32 31 ∧ 31 < 2 ^ 32 := by decide

theorem witness_ExtremeDurations : (pulsing 3 0 5 5 []).pending ≠ 0 ∧ (pulsing 3 0 5 5 []).duration = 0 ∧
    (pulsing 1 0xFFFFFFFF 0 0 []).pending ≠ 0 ∧ (pulsing 1 0xFFFFFFFF 0 0 []).duration = 0xFFFFFFFF := by decide

theorem pulsing5_inRange (d p : Word) (t : Nat) (rx : List Byte) : (pulsing 5 d p t rx).pendingInRange := by
  intro i h
  rcases Nat.lt_or_ge i 32 with hlt | hge
  · have : ∀ i < 32, (5 : Word).getLsbD i = true → i < 5 := by decide
    exact this i hlt h
  · rw [BitVec.getLsbD_of_ge _ i hge] at h; cases h

theorem witness_TickNeverAborts : (pulsing 5 50 0 50 []).pendingInRange := pulsing5_inRange 50 0 50 []

/-- A step that neither is reset nor starts a sequence, in the middle of one, with a zero target among
them. -/
theorem witness_PendingOnlyShrinks :
    (nextOf (step (pulsing 5 50 0 50 [2, 0, 0, 0, 0, 0, 0, 0, 9]))).isSome = true ∧
    Input.reset ∉ (pulsing 5 50 0 50 [2, 0, 0, 0, 0, 0, 0, 0, 9]).inputs.headD [] ∧
    (pulsing 5 50 0 50 [2, 0, 0, 0, 0, 0, 0, 0, 9]).dispatched = some (.timedPulse 0 9) := by decide

theorem witness_DurationIsWrittenOnlyByStart :
    (nextOf (step (withBytes frame2 7))).isSome = true ∧ Input.reset ∉ (withBytes frame2 7).inputs.headD [] ∧
    (withBytes frame2 7).dispatched = some (.timedPulse 5 50) ∧ (5 : Word) ≠ 0 := by decide

/-- The first clause on a command that aborts: bit 5 is the first without a slot. -/
theorem witness_DurationIsWrittenOnlyByStart_abort :
    (nextOf (step (withBytes [2, 0, 0, 0, 0x20, 0, 0, 0, 7] 7))).isSome = true ∧
    Input.reset ∉ (withBytes [2, 0, 0, 0, 0x20, 0, 0, 0, 7] 7).inputs.headD [] ∧
    (withBytes [2, 0, 0, 0, 0x20, 0, 0, 0, 7] 7).dispatched = some (.timedPulse 0x20 7) ∧
    (0x20 : Word) ≠ 0 ∧ Config.reference.bankTP.slots ≤ msb 0x20 := by decide

/-- The second clause: a zero target during a sequence, and a call that dispatches nothing. -/
theorem witness_DurationIsWrittenOnlyByStart_kept :
    (nextOf (step (pulsing 5 50 0 50 [2, 0, 0, 0, 0, 0, 0, 0, 9]))).isSome = true ∧
    Input.reset ∉ (pulsing 5 50 0 50 [2, 0, 0, 0, 0, 0, 0, 0, 9]).inputs.headD [] ∧
    (pulsing 5 50 0 50 [2, 0, 0, 0, 0, 0, 0, 0, 9]).dispatched = some (.timedPulse 0 9) ∧
    (nextOf (step (pulsing 1 50 0 50 []))).isSome = true ∧
    Input.reset ∉ (pulsing 1 50 0 50 []).inputs.headD [] ∧
    (pulsing 1 50 0 50 []).dispatched = none := by decide

theorem witness_PhaseStartIsKeptZeroOrTheSample : (withBytes frame2 7).cfg.clockSampling = .once ∧
    (nextOf (step (withBytes frame2 7))).isSome = true := by decide

theorem witness_FirstPhaseBeginsAtTheCallsSample : (withBytes frame2 7).cfg.clockSampling = .once ∧
    decode (withBytes frame2 7).deliver.cfg (withBytes frame2 7).deliver.rx = .ok (.timedPulse 5 50, []) ∧
    (5 : Word) ≠ 0 ∧ msb 5 < (withBytes frame2 7).cfg.bankTP.slots := by decide

theorem witness_PulseOrderIsHighestFirst : (pulsing 5 50 0 50 []).pendingInRange ∧
    (pulsing 5 50 0 50 []).rx = [] ∧ (pulsing 5 50 0 50 []).inputs = [] :=
  ⟨pulsing5_inRange 50 0 50 [], rfl, rfl⟩

/-- S-B's sequence: two actuators, 50 ms each. -/
theorem witness_PulseSequenceRunsToItsEnd :
    (5 : Word) ≠ 0 ∧ msb 5 < State.reset.cfg.bankTP.slots ∧ State.reset.pending = 0 ∧
    State.reset.cfg.clockSampling = .once ∧ State.reset.rx = [] ∧ State.reset.inputs = [] ∧
    { State.reset with clockIn := [50, 50] }.clockIn = [50, 50] ∧
    [50, 50].length = (setBitsDescending 5).length ∧ ∀ g ∈ [50, 50], (50 : Word).toNat ≤ g % 2 ^ 32 := by decide

theorem witness_OneClockSamplePerCall : (withBytes frame1 7).cfg.clockSampling = .once ∧
    (withBytes frame1 7).clockIn = 7 :: [] ∧ (nextOf (step (withBytes frame1 7))).isSome = true := by decide

/-- In the middle of a sequence: actuator 2 is HIGH and active. -/
theorem witness_StepKeepsTheInvariant :
    { State.reset with pending := 4, trace := [pulseEntry Config.reference 2 .high] }.Inv where
  pendingInRange := by
    intro i h
    rcases Nat.lt_or_ge i 32 with hlt | hge
    · have : ∀ i < 32, (4 : Word).getLsbD i = true → i < 5 := by decide
      exact this i hlt h
    · rw [BitVec.getLsbD_of_ge _ i hge] at h; cases h
  pulseHighIsActive := by rfl
  oneAtATime := by
    rintro (_ | n)
    · exact Nat.zero_le 1
    · simp [pulseHigh, pulseHighStep, pulseEntry]

theorem witness_IdleRegistersAreUnobservable :
    State.reset.sameUpToIdle { State.reset with duration := 9, phaseStart := 4 } :=
  ⟨rfl, fun h => absurd rfl h⟩

theorem witness_ErrorConditionsHaveTheirEffects :
    (withBytes [1, 0] 0).pollCondition = some .incompleteFrame ∧
    (withBytes [4] 0).pollCondition = some .unknownOpcode ∧
    (withBytes [3, 0, 0, 0, 0, 7] 0).pollCondition = some .zeroTarget ∧
    (withBytes [2, 0, 0, 0, 0x20, 0, 0, 0, 1] 0).pollCondition = some .outOfRangeIndex := by decide

theorem witness_ResetOfARunningMachine :
    { pulsing 5 50 0 0 [1] with inputs := [[.reset, .arrive [2]]] }.inputs = [.reset, .arrive [2]] :: [] := by
  decide

end Sys2Proof.Tests
end

section
/-! Proofs about `00_scope.md`: the arithmetic primitives of rule R8, and the outcome of a step (R9). -/

namespace Sys2Proof.Machine

/-! ## The arithmetic primitives (R8) -/

/-- Where two bit strings meet, the first is worth its number shifted past the second. -/
theorem toNat_append_eq {m n : Nat} (x : BitVec m) (y : BitVec n) :
    (x ++ y).toNat = x.toNat * 2 ^ n + y.toNat := by
  rw [BitVec.toNat_append, ← Nat.shiftLeft_add_eq_or_of_lt y.isLt, Nat.shiftLeft_eq]

theorem be32_toNat (b0 b1 b2 b3 : Byte) : (be32 b0 b1 b2 b3).toNat =
    b0.toNat * 2 ^ 24 + b1.toNat * 2 ^ 16 + b2.toNat * 2 ^ 8 + b3.toNat := by
  simp only [be32, toNat_append_eq]
  omega

/-- `getLsbD_clear` at every index: beyond the word both sides are 0. -/
theorem getLsbD_clear_any (v : Word) (i j : Nat) :
    (clear v i).getLsbD j = (v.getLsbD j && decide (j ≠ i)) := by
  rcases Nat.lt_or_ge j 32 with hj | hj
  · exact getLsbD_clear v i j hj
  · rw [BitVec.getLsbD_of_ge _ j hj, BitVec.getLsbD_of_ge v j hj, Bool.false_and]

theorem elapsed_toNat (now start : Word) :
    (elapsed now start).toNat = (now.toNat + 2 ^ 32 - start.toNat) % 2 ^ 32 := by
  have hstart : start.toNat < 2 ^ 32 := start.isLt
  rw [elapsed, BitVec.toNat_sub]
  congr 1
  omega

/-- Settles O1, one primitive at a time. -/
theorem arithmeticPrimitivesCompute : Obligations.ArithmeticPrimitivesCompute :=
  ⟨be32_toNat,
    fun v hv => ⟨msb_lt v hv, getLsbD_msb v hv, getLsbD_of_msb_lt v hv⟩,
    fun v i j _ => getLsbD_clear_any v i j,
    elapsed_toNat⟩

/-! ## The outcome of a step (R9, R110) -/

/-- Every command has a handler that answers a next state (R60, R110). -/
theorem exists_exec_next (i : Instr) (s : State) : ∃ t, exec i s = .next t := by
  cases i with
  | digitalWrite bitset level => exact ⟨_, rfl⟩
  | timedPulse bitset duration => exact ⟨_, rfl⟩
  | pwmSet bitset intensity => exact ⟨_, rfl⟩

/-- Settles O14, by the ways a step can end: nothing dispatched, an unknown opcode met, or a command run. -/
theorem everyStepAnswersANextState : Obligations.EveryStepAnswersANextState := by
  intro s
  obtain ⟨-, hidle⟩ | ⟨-, hunknown⟩ | ⟨i, rest, -, -, hrun⟩ := step_cases s
  · exact ⟨_, hidle⟩
  · exact ⟨_, hunknown⟩
  · rw [hrun]
    exact exists_exec_next i _

end Sys2Proof.Machine
end

section
/-! Proofs about `10_state.md`: who writes each register (rules R11 to R13, R18, R20), the pin shadow
(R24), the invariants (R25 to R27), reset (R28) and the registers nobody reads in Idle (R29). -/

namespace Sys2Proof.Machine

/-! ## Between two calls, without a reset -/

theorem foldl_applyInput_of_no_reset (before : List Input) (s : State) (h : Input.reset ∉ before) :
    before.foldl State.applyInput s = s.setRx (s.rx ++ arrivals before) := by
  induction before generalizing s with
  | nil => simp [arrivals, State.setRx]
  | cons i more ih =>
    obtain ⟨hi, hmore⟩ := not_or.mp (List.mem_cons.not.mp h)
    cases i with
    | arrive bytes => simp [ih _ hmore, arrivals, State.setRx]
    | reset => exact absurd rfl hi

/-- Where no reset is among the inputs of a call, bytes arrive and nothing else happens (R35). -/
theorem State.deliver_of_no_reset (s : State) (h : Input.reset ∉ s.inputs.headD []) :
    s.deliver = { s with rx := s.rx ++ arrivals (s.inputs.headD []), inputs := s.inputs.tail } := by
  unfold State.deliver
  split
  case h_1 hs =>
    simp only [hs, arrivals, List.headD_nil, List.append_nil, List.tail_nil]
    rw [← hs]
  case h_2 before later hs =>
    rw [hs] at h ⊢
    exact foldl_applyInput_of_no_reset before _ h

/-! ## What a step can do to the scheduler -/

namespace State

variable (s : State)

@[simp] theorem meetUnknownOpcode_cfg : s.meetUnknownOpcode.cfg = s.cfg := by
  unfold meetUnknownOpcode; split <;> rfl

theorem meetUnknownOpcode_leave (h : s.cfg.unknownOpcode = .leave) : s.meetUnknownOpcode = s := by
  simp [meetUnknownOpcode, h]

/-- An unknown opcode can cost the stream bytes, and changes nothing else (R59, D7). -/
theorem exists_meetUnknownOpcode_eq_setRx : ∃ rx, s.meetUnknownOpcode = s.setRx rx := by
  unfold meetUnknownOpcode
  split
  · exact ⟨s.rx, rfl⟩
  · exact ⟨_, rfl⟩

end State

/-- From `s` to `t` only the stream and the trace have moved, and no event is one of the scheduler's. -/
def WithoutScheduler (s t : State) : Prop :=
  ∃ rx es, (∀ e ∈ es, e.drive = none) ∧ t = { s with rx := rx, trace := s.trace ++ es }

theorem withoutScheduler_setRx (s : State) (rx : List Byte) : WithoutScheduler s (s.setRx rx) :=
  ⟨rx, [], by simp, by simp [State.setRx]⟩

/-- After its `tick`, a step runs `start`, or does nothing that concerns the scheduler. -/
theorem step_next_cases {s t : State} (h : step s = .next t) :
    (∃ b d rest, s.dispatched = some (.timedPulse b d) ∧
      t = (start b d (tick s.deliver.readClock)).setRx rest) ∨
    ((∀ b d, s.dispatched ≠ some (.timedPulse b d)) ∧ WithoutScheduler (tick s.deliver.readClock) t) := by
  obtain ⟨hd, hs⟩ | ⟨hd, hs⟩ | ⟨i, rest, hd, -, hs⟩ := step_cases s
  · obtain rfl := Host.Outcome.next.inj (hs.symm.trans h)
    exact .inr ⟨by simp [hd], withoutScheduler_setRx _ _⟩
  · obtain rfl := Host.Outcome.next.inj (hs.symm.trans h)
    obtain ⟨rx, hrx⟩ := (tick s.deliver.readClock).exists_meetUnknownOpcode_eq_setRx
    exact .inr ⟨by simp [hd], hrx ▸ withoutScheduler_setRx _ rx⟩
  · obtain ⟨b, l, rfl, rfl⟩ | ⟨b, d, rfl, rfl⟩ | ⟨b, v, rfl, rfl⟩ := exec_next i _ t (hs.symm.trans h)
    · exact .inr ⟨by simp [hd], rest, _, List.forall_mem_map.mpr fun _ _ => rfl, rfl⟩
    · exact .inl ⟨b, d, rest, hd, start_setRx _ b d rest⟩
    · exact .inr ⟨by simp [hd], rest, _, List.forall_mem_map.mpr fun _ _ => rfl, rfl⟩

theorem tick_idle {s : State} (h : s.pending = 0) : tick s = s := if_pos h

/-! ## Invariants A and B (R25, R26) -/

/-- Invariant B of a trace: `PULSE_HIGH` is this actuator alone or nothing, and never had two members. -/
structure OnlyHigh (trace : List TraceEntry) (active : Option Nat) : Prop where
  pulseHigh_eq : pulseHigh trace = active.toList
  oneAtATime : ∀ n, (pulseHigh (trace.take n)).length ≤ 1

theorem State.inv_iff (s : State) : s.Inv ↔ s.pendingInRange ∧ OnlyHigh s.trace s.active :=
  ⟨fun ⟨hA, hB, hone⟩ => ⟨hA, hB, hone⟩, fun ⟨hA, hB, hone⟩ => ⟨hA, hB, hone⟩⟩

/-- The invariants are about the configuration, `PENDING` and the trace. -/
theorem State.Inv.congr {s t : State} (h : s.Inv) (hcfg : t.cfg = s.cfg) (hpending : t.pending = s.pending)
    (htrace : t.trace = s.trace) : t.Inv := by
  simpa only [State.inv_iff, State.pendingInRange, State.active, hcfg, hpending, htrace] using h

theorem State.active_idle {s : State} (h : s.pending = 0) : s.active = none := if_pos h

theorem State.active_pulsing {s : State} (h : s.pending ≠ 0) : s.active = some (msb s.pending) := if_neg h

theorem State.pendingInRange_of_idle {s : State} (h : s.pending = 0) : s.pendingInRange := by
  simp [State.pendingInRange, h]

/-- No bit stands above the highest one, so its slot is enough. -/
theorem State.pendingInRange_of_msb_lt {s : State} (h : msb s.pending < s.cfg.bankTP.slots) :
    s.pendingInRange :=
  fun i hi => (le_msb_of_getLsbD s.pending i hi).trans_lt h

theorem State.inv_of_idle {s : State} (hpending : s.pending = 0) (hhigh : OnlyHigh s.trace none) : s.Inv :=
  s.inv_iff.mpr ⟨pendingInRange_of_idle hpending, active_idle hpending ▸ hhigh⟩

@[simp] theorem pulseHigh_append_singleton (trace : List TraceEntry) (e : TraceEntry) :
    pulseHigh (trace ++ [e]) = pulseHighStep (pulseHigh trace) e := by
  simp [pulseHigh]

theorem onlyHigh_nil : OnlyHigh [] none := ⟨rfl, by simp [pulseHigh]⟩

/-- One event more: only the whole trace is a new point of the trace. -/
theorem OnlyHigh.append_singleton {trace : List TraceEntry} {o o' : Option Nat} {e : TraceEntry}
    (h : OnlyHigh trace o) (he : pulseHighStep o.toList e = o'.toList) : OnlyHigh (trace ++ [e]) o' := by
  have hwhole : pulseHigh (trace ++ [e]) = o'.toList := by
    rw [pulseHigh_append_singleton, h.pulseHigh_eq, he]
  refine ⟨hwhole, fun n => ?_⟩
  rcases Nat.lt_or_ge trace.length n with hlt | hle
  · rw [List.take_of_length_le (by simpa using hlt), hwhole]
    exact Option.length_toList_le
  · rw [List.take_append_of_le_length hle]
    exact h.oneAtATime n

theorem OnlyHigh.drive_low {trace : List TraceEntry} {i : Nat} (h : OnlyHigh trace (some i)) (c : Config) :
    OnlyHigh (trace ++ [pulseEntry c i .low]) none :=
  h.append_singleton (by simp [pulseHighStep, pulseEntry])

theorem OnlyHigh.drive_high {trace : List TraceEntry} (h : OnlyHigh trace none) (c : Config) (i : Nat) :
    OnlyHigh (trace ++ [pulseEntry c i .high]) (some i) :=
  h.append_singleton (by simp [pulseHighStep, pulseEntry])

theorem OnlyHigh.append_undriven {trace : List TraceEntry} {o : Option Nat} (h : OnlyHigh trace o)
    (es : List TraceEntry) (hes : ∀ e ∈ es, e.drive = none) : OnlyHigh (trace ++ es) o := by
  induction es generalizing trace with
  | nil => simpa using h
  | cons e more ih =>
    obtain ⟨he, hmore⟩ := List.forall_mem_cons.mp hes
    rw [List.append_cons]
    exact ih (h.append_singleton (by simp [pulseHighStep, he])) hmore

/-- Entering a phase with nothing HIGH gives both invariants, whether the selected bit has a slot or not. -/
theorem enterPhase_inv (s : State) (h : OnlyHigh s.trace none) (hpending : s.pending ≠ 0) :
    (enterPhase s).Inv := by
  rcases Nat.lt_or_ge (msb s.pending) s.cfg.bankTP.slots with hslot | hslot
  · rw [enterPhase_slot s hslot, State.inv_iff, State.active_pulsing (by simpa using hpending)]
    exact ⟨State.pendingInRange_of_msb_lt (by simpa using hslot), by simpa using h.drive_high _ _⟩
  · rw [enterPhase_no_slot s hslot]
    exact State.inv_of_idle (by simp) (h.append_undriven _ (by simp))

theorem endPhase_onlyHigh (s : State) (h : s.Inv) (hpending : s.pending ≠ 0) :
    OnlyHigh (endPhase s).trace none := by
  have hhigh := (s.inv_iff.mp h).2
  rw [State.active_pulsing hpending] at hhigh
  exact hhigh.drive_low s.cfg

theorem cancel_onlyHigh (s : State) (h : s.Inv) : OnlyHigh (cancel s).trace none := by
  by_cases hpending : s.pending = 0
  · rw [cancel_idle s hpending, ← State.active_idle hpending]
    exact (s.inv_iff.mp h).2
  · rw [cancel_pulsing s hpending]
    exact endPhase_onlyHigh s h hpending

theorem tick_inv (s : State) (h : s.Inv) : (tick s).Inv := by
  obtain ⟨-, ht⟩ | ⟨-, -, ht⟩ | ⟨hpending, -, hlast, ht⟩ | ⟨hpending, -, hleft, ht⟩ := tick_cases s <;> rw [ht]
  · exact h
  · exact h
  · exact State.inv_of_idle hlast (endPhase_onlyHigh s h hpending)
  · exact enterPhase_inv _ (endPhase_onlyHigh s h hpending) hleft

theorem start_inv (b d : Word) (s : State) (h : s.Inv) : (start b d s).Inv := by
  by_cases hb : b = 0
  · subst hb; rwa [start_zero]
  · rw [start_nonzero s b d hb]
    exact enterPhase_inv _ (cancel_onlyHigh s h) hb

theorem WithoutScheduler.inv {s t : State} (hst : WithoutScheduler s t) (h : s.Inv) : t.Inv := by
  obtain ⟨rx, es, hes, rfl⟩ := hst
  obtain ⟨hA, hB⟩ := s.inv_iff.mp h
  exact (State.inv_iff _).mpr ⟨hA, hB.append_undriven es hes⟩

theorem reset_inv : State.reset.Inv := State.inv_of_idle rfl onlyHigh_nil

theorem assertReset_inv (s : State) : s.assertReset.Inv := State.inv_of_idle rfl onlyHigh_nil

theorem deliver_inv (s : State) (h : s.Inv) : s.deliver.Inv := by
  refine s.deliver_keeps State.Inv h (h.congr rfl rfl rfl) fun u i hu => ?_
  cases i with
  | arrive bytes => exact hu.congr rfl rfl rfl
  | reset => exact assertReset_inv u

/-- Both invariants, kept by a whole call: its inputs, its clock sample, its `tick`, its frame. -/
theorem step_inv {s t : State} (hst : step s = .next t) (h : s.Inv) : t.Inv := by
  have hticked : (tick s.deliver.readClock).Inv :=
    tick_inv _ ((deliver_inv s h).congr (by simp) (by simp) (by simp))
  obtain ⟨b, d, rest, -, rfl⟩ | ⟨-, hquiet⟩ := step_next_cases hst
  · exact (start_inv b d _ hticked).congr rfl rfl rfl
  · exact hquiet.inv hticked

/-- Settles O40: `tick` and `start` meet a phase's entry with nothing HIGH, and the rest of a step makes no
write of the scheduler's. -/
theorem stepKeepsTheInvariant : Obligations.StepKeepsTheInvariant := by
  intro s h
  refine ⟨tick_inv s h, fun b d t hexec => ?_, fun t hst => step_inv hst h⟩
  obtain rfl := Host.Outcome.next.inj hexec
  exact start_inv b d s h

/-- Settles O39: nothing is pending and the trace is empty. -/
theorem invariantHoldsAtReset : Obligations.InvariantHoldsAtReset := ⟨reset_inv, assertReset_inv⟩

/-! ## The registers nobody reads in Idle (R29, U3) -/

/-- The state with other contents of the two registers. -/
def State.withTimes (s : State) (d p : Word) : State := { s with duration := d, phaseStart := p }

/-- Two states that agree up to Idle are equal, or both Idle with other contents of the two registers. -/
theorem State.sameUpToIdle_iff (s u : State) :
    s.sameUpToIdle u ↔ u = s ∨ s.pending = 0 ∧ ∃ d p, u = s.withTimes d p := by
  constructor
  · rintro ⟨hu, hpulsing⟩
    by_cases hp : s.pending = 0
    · exact .inr ⟨hp, _, _, hu⟩
    · exact .inl (hpulsing hp)
  · rintro (rfl | ⟨hp, d, p, rfl⟩)
    · exact ⟨rfl, fun _ => rfl⟩
    · exact ⟨rfl, fun h => absurd hp h⟩

theorem State.sameUpToIdle_refl (s : State) : s.sameUpToIdle s := (s.sameUpToIdle_iff s).mpr (.inl rfl)

theorem State.sameUpToIdle_withTimes {s : State} (hp : s.pending = 0) (d p : Word) :
    s.sameUpToIdle (s.withTimes d p) := (s.sameUpToIdle_iff _).mpr (.inr ⟨hp, d, p, rfl⟩)

/-- An operation that neither reads nor writes the two registers, and keeps Idle, keeps the relation. -/
theorem State.sameUpToIdle.map {s u : State} (h : s.sameUpToIdle u) (f : State → State)
    (hidle : s.pending = 0 → (f s).pending = 0)
    (hf : ∀ d p, f (s.withTimes d p) = (f s).withTimes d p) : (f s).sameUpToIdle (f u) := by
  obtain rfl | ⟨hp, d, p, rfl⟩ := (s.sameUpToIdle_iff u).mp h
  · exact (f u).sameUpToIdle_refl
  · exact hf d p ▸ sameUpToIdle_withTimes (hidle hp) d p

theorem State.withTimes_readClock (s : State) (d p : Word) :
    (s.withTimes d p).readClock = s.readClock.withTimes d p := by
  simp only [State.readClock, State.withTimes]; split <;> rfl

theorem State.withTimes_now (s : State) (d p : Word) : (s.withTimes d p).now = s.now.withTimes d p := by
  simp only [State.now, State.withTimes_readClock]
  rw [show (s.withTimes d p).cfg = s.cfg from rfl]
  split <;> rfl

theorem State.withTimes_meetUnknownOpcode (s : State) (d p : Word) :
    (s.withTimes d p).meetUnknownOpcode = s.meetUnknownOpcode.withTimes d p := by
  simp only [State.meetUnknownOpcode, State.withTimes]; split <;> rfl

theorem State.sameUpToIdle.setRx {s u : State} (h : s.sameUpToIdle u) (rx : List Byte) :
    (s.setRx rx).sameUpToIdle (u.setRx rx) :=
  h.map (State.setRx rx) id fun _ _ => rfl

theorem State.sameUpToIdle.applyInput {s u : State} (h : s.sameUpToIdle u) (i : Input) :
    (s.applyInput i).sameUpToIdle (u.applyInput i) := by
  cases i with
  | arrive bytes => exact h.map (·.applyInput (.arrive bytes)) id fun _ _ => rfl
  | reset =>
    have hreset : u.assertReset = s.assertReset := by rw [h.1]; rfl
    rw [State.applyInput_reset, State.applyInput_reset, hreset]
    exact s.assertReset.sameUpToIdle_refl

theorem State.sameUpToIdle.foldl_applyInput {s u : State} (h : s.sameUpToIdle u) (before : List Input) :
    (before.foldl State.applyInput s).sameUpToIdle (before.foldl State.applyInput u) := by
  induction before generalizing s u with
  | nil => exact h
  | cons i more ih => exact ih (h.applyInput i)

theorem State.sameUpToIdle.deliver {s u : State} (h : s.sameUpToIdle u) : s.deliver.sameUpToIdle u.deliver := by
  have hinputs : u.inputs = s.inputs := by rw [h.1]
  unfold State.deliver
  rw [hinputs]
  split
  · exact h
  case h_2 before later hs =>
    exact (h.map (fun w => { w with inputs := later }) id fun _ _ => rfl).foldl_applyInput before

theorem State.sameUpToIdle.readClock {s u : State} (h : s.sameUpToIdle u) :
    s.readClock.sameUpToIdle u.readClock :=
  h.map State.readClock (by simp) s.withTimes_readClock

theorem State.sameUpToIdle.tick {s u : State} (h : s.sameUpToIdle u) : (tick s).sameUpToIdle (tick u) := by
  obtain rfl | ⟨hp, d, p, rfl⟩ := (s.sameUpToIdle_iff u).mp h
  · exact State.sameUpToIdle_refl _
  · rwa [tick_idle hp, tick_idle (s := s.withTimes d p) hp]

/-- A non-zero `start` writes `DURATION` itself, and `PHASE_START` too unless it ends in Idle. -/
theorem State.sameUpToIdle.start {s u : State} (h : s.sameUpToIdle u) (b d : Word) :
    (start b d s).sameUpToIdle (start b d u) := by
  by_cases hb : b = 0
  · subst hb; rwa [start_zero, start_zero]
  obtain rfl | ⟨hp, d', p, rfl⟩ := (s.sameUpToIdle_iff u).mp h
  · exact State.sameUpToIdle_refl _
  rw [start_nonzero _ b d hb, start_nonzero _ b d hb, cancel_idle s hp, cancel_idle (s.withTimes d' p) hp]
  rcases Nat.lt_or_ge (msb b) s.cfg.bankTP.slots with hslot | hslot
  · rw [enterPhase_slot ((s.setPending b).setDuration d) hslot,
      enterPhase_slot (((s.withTimes d' p).setPending b).setDuration d) hslot]
    simp only [State.setDuration_now, State.setPending_now, State.withTimes_now]
    exact State.sameUpToIdle_refl _
  · rw [enterPhase_no_slot ((s.setPending b).setDuration d) hslot,
      enterPhase_no_slot (((s.withTimes d' p).setPending b).setDuration d) hslot]
    exact State.sameUpToIdle_withTimes rfl d p

theorem State.sameUpToIdle.directWrite {s u : State} (h : s.sameUpToIdle u) (bank : Config → Bank)
    (bitset : Word) (entry : Pin → TraceEntry) :
    (directWrite (bank s.cfg) bitset (fun p w => w.emit (entry p)) s).sameUpToIdle
      (directWrite (bank u.cfg) bitset (fun p w => w.emit (entry p)) u) :=
  h.map (fun w => Machine.directWrite (bank w.cfg) bitset (fun p x => x.emit (entry p)) w)
    (fun hp => by rw [directWrite_emit]; exact hp) (fun d p => by rw [directWrite_emit, directWrite_emit]; rfl)

theorem exec_sameUpToIdle {s u : State} (h : s.sameUpToIdle u) (i : Instr) :
    ∃ t v, exec i s = .next t ∧ exec i u = .next v ∧ t.sameUpToIdle v := by
  cases i with
  | digitalWrite b l => exact ⟨_, _, rfl, rfl, h.directWrite Config.bankDW b fun p => ⟨.wd p l, none⟩⟩
  | timedPulse b d => exact ⟨_, _, rfl, rfl, h.start b d⟩
  | pwmSet b v => exact ⟨_, _, rfl, rfl, h.directWrite Config.bankPWM b fun p => ⟨.wp p v, none⟩⟩

theorem pollOnce_sameUpToIdle {s u : State} (h : s.sameUpToIdle u) :
    ∃ t v, pollOnce s = .next t ∧ pollOnce u = .next v ∧ t.sameUpToIdle v := by
  have hdecode : decode u.cfg u.rx = decode s.cfg s.rx := by rw [h.1]
  unfold pollOnce
  rw [hdecode]
  split
  · exact ⟨_, _, rfl, rfl, h⟩
  · refine ⟨_, _, rfl, rfl, h.map State.meetUnknownOpcode ?_ s.withTimes_meetUnknownOpcode⟩
    obtain ⟨rx, hrx⟩ := s.exists_meetUnknownOpcode_eq_setRx
    simp [hrx]
  · exact ⟨_, _, rfl, rfl, h⟩
  · exact exec_sameUpToIdle (h.setRx _) _

theorem step_sameUpToIdle {s u : State} (h : s.sameUpToIdle u) :
    ∃ t v, step s = .next t ∧ step u = .next v ∧ t.sameUpToIdle v :=
  pollOnce_sameUpToIdle h.deliver.readClock.tick

theorem runSteps_sameUpToIdle (n : Nat) {s u : State} (h : s.sameUpToIdle u) :
    ∃ t v, runSteps n s = .next t ∧ runSteps n u = .next v ∧ t.sameUpToIdle v := by
  induction n generalizing s u with
  | zero => exact ⟨s, u, rfl, rfl, h⟩
  | succ n ih =>
    obtain ⟨s', u', hs, hu, h'⟩ := step_sameUpToIdle h
    rw [runSteps_succ n s s' hs, runSteps_succ n u u' hu]
    exact ih h'

/-- Settles O43, by induction on the number of steps: every part of a step keeps the relation. -/
theorem idleRegistersAreUnobservable : Obligations.IdleRegistersAreUnobservable := by
  intro s u h n
  obtain ⟨t, v, hs, hu, htv⟩ := runSteps_sameUpToIdle n h
  exact ⟨t, v, hs, hu, htv, by rw [htv.1], by rw [htv.1], by rw [htv.1]⟩

/-! ## The stream and the configuration (R18, R20) -/

/-- A decoded frame is its opcode's size long, and the stream behind it is what is left. -/
theorem decode_ok_size {c : Config} {rx rest : List Byte} {i : Instr} (h : decode c rx = .ok (i, rest)) :
    (Laws.EncodeSize.opcode i).size ≤ rx.length ∧ rest = rx.drop (Laws.EncodeSize.opcode i).size := by
  obtain ⟨op, o, -, -, hlen, rfl, rfl⟩ := decode_ok c rx rest i h
  have hopcode : Laws.EncodeSize.opcode (decodeFrame o (rx.take o.size)) = o := by cases o <;> rfl
  rw [hopcode]
  exact ⟨hlen, rfl⟩

/-- What `poll_once` leaves of the stream: what the decoder leaves. -/
theorem pollOnce_rx {s t : State} (hpolicy : s.cfg.unknownOpcode = .leave) (h : pollOnce s = .next t) :
    (∃ r, decode s.cfg s.rx = .error r ∧ t.rx = s.rx) ∨ ∃ i, decode s.cfg s.rx = .ok (i, t.rx) := by
  obtain ⟨hd, hp⟩ | ⟨op, hd, hp⟩ | ⟨op, n, hd, hp⟩ | ⟨i, rest, hd, hp⟩ := pollOnce_cases s <;> rw [hp] at h
  · obtain rfl := Host.Outcome.next.inj h
    exact .inl ⟨_, hd, rfl⟩
  · rw [s.meetUnknownOpcode_leave hpolicy] at h
    obtain rfl := Host.Outcome.next.inj h
    exact .inl ⟨_, hd, rfl⟩
  · obtain rfl := Host.Outcome.next.inj h
    exact .inl ⟨_, hd, rfl⟩
  · obtain ⟨-, hrx, -⟩ := exec_next_env i _ t h
    exact .inr ⟨i, hrx ▸ hd⟩

/-- A call's clock sample and `tick` leave the stream to its `poll_once`. -/
theorem service_rx {s t : State} (hpolicy : s.cfg.unknownOpcode = .leave) (h : service s = .next t) :
    (∃ r, decode s.cfg s.rx = .error r ∧ t.rx = s.rx) ∨ ∃ i, decode s.cfg s.rx = .ok (i, t.rx) := by
  simpa using pollOnce_rx (s := tick s.readClock) (by simpa using hpolicy) h

/-- Settles O12: a call takes from the stream what its decoder takes, which is a whole frame. -/
theorem streamHeadMovesByWholeFrames : Obligations.StreamHeadMovesByWholeFrames := by
  intro s t hpolicy h
  obtain ⟨r, hd, hrx⟩ | ⟨i, hd⟩ := service_rx hpolicy h
  · rw [hd]; exact hrx
  · have hsize := decode_ok_size hd
    rw [hd]
    cases i <;> exact hsize

/-- Settles O15: neither the scheduler nor any command writes it. -/
theorem noStepWritesTheConfiguration : Obligations.NoStepWritesTheConfiguration := by
  intro s t h
  obtain ⟨b, d, rest, -, rfl⟩ | ⟨-, rx, es, -, rfl⟩ := step_next_cases h <;> simp

/-! ## PENDING (R11, R27) -/

/-- A `tick` takes the highest bit away, or aborts on a bit without a slot, or leaves `PENDING`. -/
theorem tick_pending (s : State) :
    (tick s).pending = s.pending ∨ (tick s).pending = clear s.pending (msb s.pending) ∨
      ¬ s.pendingInRange ∧ (tick s).pending = 0 := by
  obtain ⟨-, ht⟩ | ⟨-, -, ht⟩ | ⟨-, -, -, ht⟩ | ⟨-, -, hleft, ht⟩ := tick_cases s <;> rw [ht]
  · exact .inl rfl
  · exact .inl rfl
  · exact .inr (.inl rfl)
  · rcases Nat.lt_or_ge (msb (endPhase s).pending) s.cfg.bankTP.slots with hslot | hslot
    · exact .inr (.inl (by rw [enterPhase_slot _ hslot]; simp [endPhase_eq]))
    · have hbit : s.pending.getLsbD (msb (endPhase s).pending) = true :=
        (getLsbD_of_clear _ _ _ (getLsbD_msb _ hleft)).1
      exact .inr (.inr ⟨fun hA => absurd (hA _ hbit) (by omega), by rw [enterPhase_no_slot _ hslot]; simp⟩)

/-- A step without a reset that starts no sequence leaves the scheduler's registers as its `tick` does. -/
theorem step_registers_of_no_start {s t : State} (h : step s = .next t)
    (hstart : ∀ b d, s.dispatched = some (.timedPulse b d) → b = 0) :
    t.pending = (tick s.deliver.readClock).pending ∧ t.duration = (tick s.deliver.readClock).duration := by
  obtain ⟨b, d, rest, hd, rfl⟩ | ⟨-, rx, es, -, rfl⟩ := step_next_cases h
  · obtain rfl := hstart b d hd
    rw [start_zero]
    exact ⟨rfl, rfl⟩
  · exact ⟨rfl, rfl⟩

/-- Settles O31: only the `tick` of such a step touches `PENDING`. -/
theorem pendingOnlyShrinks : Obligations.PendingOnlyShrinks := by
  intro s t h hreset hstart
  have hshrinks := tick_pending s.deliver.readClock
  rw [← (step_registers_of_no_start h hstart).1] at hshrinks
  simp only [State.pendingInRange, State.readClock_cfg, State.readClock_pending,
    s.deliver_of_no_reset hreset] at hshrinks
  refine ⟨hshrinks, fun i hi => ?_⟩
  obtain hp | hp | ⟨-, hp⟩ := hshrinks <;> rw [hp] at hi
  · exact hi
  · exact (getLsbD_of_clear _ _ _ hi).1
  · simp at hi

/-! ## DURATION (R12) -/

theorem start_duration (b d : Word) (s : State) (hb : b ≠ 0) : (start b d s).duration = d := by
  simp [start_nonzero s b d hb]

/-- Settles O32: `tick` leaves the register, and a non-zero `start` loads it. -/
theorem durationIsWrittenOnlyByStart : Obligations.DurationIsWrittenOnlyByStart := by
  intro s t h hreset
  refine ⟨fun b d hd hb => ?_, fun hstart => ?_⟩
  · obtain ⟨b', d', rest, hd', rfl⟩ | ⟨hnone, -⟩ := step_next_cases h
    · obtain ⟨rfl, rfl⟩ := Instr.timedPulse.inj (Option.some.inj (hd'.symm.trans hd))
      exact start_duration b' d' _ hb
    · exact absurd hd (hnone b d)
  · rw [(step_registers_of_no_start h hstart).2]
    simp [s.deliver_of_no_reset hreset]

/-! ## PHASE_START (R13) -/

@[simp] theorem cancel_clock (s : State) : (cancel s).clock = s.clock := by unfold cancel; split <;> rfl

@[simp] theorem cancel_phaseStart (s : State) : (cancel s).phaseStart = s.phaseStart := by
  unfold cancel; split <;> rfl

section OneSample

variable {s : State} (honce : s.cfg.clockSampling = .once)

include honce

/-- With one sample per call, entering a phase records that sample or, on an abort, nothing. -/
theorem enterPhase_phaseStart_of_once :
    (enterPhase s).clock = s.clock ∧
      ((enterPhase s).phaseStart = s.phaseStart ∨ (enterPhase s).phaseStart = s.clock) := by
  rcases Nat.lt_or_ge (msb s.pending) s.cfg.bankTP.slots with hslot | hslot
  · rw [enterPhase_slot s hslot, State.now_once s honce]
    exact ⟨rfl, .inr rfl⟩
  · rw [enterPhase_no_slot s hslot]
    exact ⟨rfl, .inl rfl⟩

theorem tick_phaseStart_of_once :
    (tick s).clock = s.clock ∧ ((tick s).phaseStart = s.phaseStart ∨ (tick s).phaseStart = 0 ∨
      (tick s).phaseStart = s.clock) := by
  obtain ⟨-, ht⟩ | ⟨-, -, ht⟩ | ⟨-, -, -, ht⟩ | ⟨-, -, -, ht⟩ := tick_cases s <;> rw [ht]
  · exact ⟨rfl, .inl rfl⟩
  · exact ⟨rfl, .inl rfl⟩
  · exact ⟨rfl, .inr (.inl rfl)⟩
  · obtain ⟨hclock, hphase⟩ := enterPhase_phaseStart_of_once (s := endPhase s) honce
    exact ⟨hclock, hphase.imp id .inr⟩

theorem start_phaseStart_of_once (b d : Word) :
    (start b d s).clock = s.clock ∧
      ((start b d s).phaseStart = s.phaseStart ∨ (start b d s).phaseStart = s.clock) := by
  by_cases hb : b = 0
  · subst hb; rw [start_zero]
    exact ⟨rfl, .inl rfl⟩
  · rw [start_nonzero s b d hb]
    have hphase := enterPhase_phaseStart_of_once (s := ((cancel s).setPending b).setDuration d) (by simpa using honce)
    simpa using hphase

end OneSample

/-- Before a call the register is left alone, or cleared by a reset. -/
theorem State.deliver_phaseStart (s : State) :
    s.deliver.phaseStart = s.phaseStart ∨ s.deliver.phaseStart = 0 := by
  refine s.deliver_keeps (fun u => u.phaseStart = s.phaseStart ∨ u.phaseStart = 0) (.inl rfl) (.inl rfl)
    fun u i hu => ?_
  cases i with
  | arrive bytes => exact hu
  | reset => exact .inr rfl

/-- Settles O33: inputs, `tick` and `start` in turn, all at one clock value. -/
theorem phaseStartIsKeptZeroOrTheSample : Obligations.PhaseStartIsKeptZeroOrTheSample := by
  intro s t honce h
  obtain ⟨hclock, hticked⟩ := tick_phaseStart_of_once (s := s.deliver.readClock) (by simpa using honce)
  have htick : (tick s.deliver.readClock).phaseStart = s.phaseStart ∨
      (tick s.deliver.readClock).phaseStart = 0 ∨
      (tick s.deliver.readClock).phaseStart = (tick s.deliver.readClock).clock := by
    rw [State.readClock_phaseStart, ← hclock] at hticked
    obtain hkept | hzero | hsample := hticked
    · rw [hkept]
      exact s.deliver_phaseStart.imp_right .inl
    · exact .inr (.inl hzero)
    · exact .inr (.inr hsample)
  obtain ⟨b, d, rest, -, rfl⟩ | ⟨-, rx, es, -, rfl⟩ := step_next_cases h
  · obtain ⟨hc, hp⟩ := start_phaseStart_of_once (s := tick s.deliver.readClock) (by simpa using honce) b d
    simp only [State.setRx_phaseStart, State.setRx_clock, hc]
    rcases hp with hp | hp <;> rw [hp]
    · exact htick
    · exact .inr (.inr rfl)
  · exact htick

/-! ## The pin shadow (R24) -/

/-- A fold in which each event either gives a new value or keeps the old one finds the last value given. -/
theorem foldl_eq_findSome?_reverse {α β : Type} (step : Option β → α → Option β) (value : α → Option β)
    (hstep : ∀ old a, step old a = (value a).or old) (l : List α) (old : Option β) :
    l.foldl step old = (l.reverse.findSome? value).or old := by
  induction l generalizing old with
  | nil => rfl
  | cons a more ih =>
    rw [List.foldl_cons, ih, hstep, List.reverse_cons, List.findSome?_append, Option.or_assoc,
      List.findSome?_singleton]

/-- The level an event gives this pin. -/
def levelGiven (p : Pin) (e : TraceEntry) : Option Level := lvlStep p none e

/-- The intensity an event gives this pin. -/
def dutyGiven (p : Pin) (e : TraceEntry) : Option Byte := dutyStep p none e

theorem levelGiven_wd (p : Pin) (v : Byte) (d : Option (Nat × Level)) :
    levelGiven p ⟨.wd p v, d⟩ = some (levelOf v) := if_pos rfl

theorem dutyGiven_wp (p : Pin) (v : Byte) (d : Option (Nat × Level)) :
    dutyGiven p ⟨.wp p v, d⟩ = some v := if_pos rfl

theorem levelGiven_eq_none_iff (p : Pin) (e : TraceEntry) :
    levelGiven p e = none ↔ ∀ v, e.event ≠ .wd p v := by
  unfold levelGiven lvlStep
  split <;> simp [*]

theorem dutyGiven_eq_none_iff (p : Pin) (e : TraceEntry) :
    dutyGiven p e = none ↔ ∀ v, e.event ≠ .wp p v := by
  unfold dutyGiven dutyStep
  split <;> simp [*]

theorem lvl_eq_findSome? (trace : List TraceEntry) (p : Pin) :
    lvl trace p = trace.reverse.findSome? (levelGiven p) := by
  rw [lvl, foldl_eq_findSome?_reverse (lvlStep p) (levelGiven p), Option.or_none]
  intro old e
  unfold levelGiven lvlStep
  split
  · split <;> rfl
  · rfl
  · rfl

theorem duty_eq_findSome? (trace : List TraceEntry) (p : Pin) :
    duty trace p = trace.reverse.findSome? (dutyGiven p) := by
  rw [duty, foldl_eq_findSome?_reverse (dutyStep p) (dutyGiven p), Option.or_none]
  intro old e
  unfold dutyGiven dutyStep
  split
  · rfl
  · split <;> rfl
  · rfl

/-- Behind the last event that gives a value, none gives another. -/
theorem findSome?_reverse_of_last {α β : Type} (value : α → Option β) (before after : List α) (a : α) (b : β)
    (ha : value a = some b) (hafter : ∀ e ∈ after, value e = none) :
    (before ++ a :: after).reverse.findSome? value = some b := by
  have hnone : after.reverse.findSome? value = none := by simpa using hafter
  simp [List.findSome?_append, hnone, ha]

/-- An event adds the index it drives HIGH and takes away the index it drives LOW. -/
theorem mem_pulseHighStep (high : List Nat) (e : TraceEntry) (i : Nat) :
    i ∈ pulseHighStep high e ↔ e.drive = some (i, .high) ∨ i ∈ high ∧ e.drive ≠ some (i, .low) := by
  unfold pulseHighStep
  split
  case h_1 j hdrive =>
    split
    case isTrue hmem =>
      have hadded : j = i → i ∈ high := fun hj => hj ▸ hmem
      simpa [hdrive] using hadded
    case isFalse => simp [hdrive, or_comm, eq_comm]
  case h_2 j hdrive => simp [hdrive, eq_comm (a := i) (b := j)]
  case h_3 hdrive => simp [hdrive]

/-- An event of the trace drives the index HIGH, and none behind it drives it LOW. -/
def DrivenHigh (trace : List TraceEntry) (i : Nat) : Prop :=
  ∃ before e after, trace = before ++ e :: after ∧ e.drive = some (i, .high) ∧
    ∀ f ∈ after, f.drive ≠ some (i, .low)

theorem not_drivenHigh_nil (i : Nat) : ¬ DrivenHigh [] i := by
  rintro ⟨before, e, after, h, -⟩
  simp at h

theorem drivenHigh_append_singleton (trace : List TraceEntry) (e : TraceEntry) (i : Nat) :
    DrivenHigh (trace ++ [e]) i ↔
      e.drive = some (i, .high) ∨ DrivenHigh trace i ∧ e.drive ≠ some (i, .low) := by
  constructor
  · rintro ⟨before, f, after, htrace, hhigh, hafter⟩
    rcases List.eq_nil_or_concat' after with rfl | ⟨after', g, rfl⟩
    · obtain ⟨-, he⟩ := List.append_inj' htrace rfl
      obtain rfl := List.singleton_injective he
      exact .inl hhigh
    · rw [← List.cons_append, ← List.append_assoc] at htrace
      obtain ⟨rfl, he⟩ := List.append_inj' htrace rfl
      obtain rfl := List.singleton_injective he
      exact .inr ⟨⟨before, f, after', rfl, hhigh, fun k hk => hafter k (by simp [hk])⟩, hafter _ (by simp)⟩
  · rintro (hhigh | ⟨⟨before, f, after, rfl, hhigh, hafter⟩, hlow⟩)
    · exact ⟨trace, e, [], rfl, hhigh, by simp⟩
    · refine ⟨before, f, after ++ [e], by simp, hhigh, ?_⟩
      simpa [or_imp, forall_and] using ⟨hafter, hlow⟩

theorem mem_pulseHigh_iff (trace : List TraceEntry) (i : Nat) : i ∈ pulseHigh trace ↔ DrivenHigh trace i := by
  induction trace using List.reverseRecOn with
  | nil => simp [pulseHigh, not_drivenHigh_nil]
  | append_singleton more e ih =>
    rw [pulseHigh_append_singleton, mem_pulseHighStep, drivenHigh_append_singleton, ih]

/-- Settles O41: `LVL` and `DUTY` find the last value given, and `PULSE_HIGH` is followed event by event. -/
theorem shadowIsTheLastWrite : Obligations.ShadowIsTheLastWrite := by
  refine ⟨fun tr p => ?_, fun before d p v after hafter => ?_, fun tr p => ?_,
    fun before d p v after hafter => ?_, mem_pulseHigh_iff, rfl, fun v hv => if_neg hv⟩
  · simp [lvl_eq_findSome?, levelGiven_eq_none_iff]
  · rw [lvl_eq_findSome?]
    exact findSome?_reverse_of_last _ before after _ _ (levelGiven_wd p v d)
      fun e he => (levelGiven_eq_none_iff p e).mpr (hafter e he)
  · simp [duty_eq_findSome?, dutyGiven_eq_none_iff]
  · rw [duty_eq_findSome?]
    exact findSome?_reverse_of_last _ before after _ _ (dutyGiven_wp p v d)
      fun e he => (dutyGiven_eq_none_iff p e).mpr (hafter e he)

/-! ## Reset (R28) -/

/-- In Idle, with no bytes in the stream and none to come, a call reads the clock and does nothing else. -/
theorem step_idle_of_empty {s : State} (hpending : s.pending = 0) (hrx : s.rx = []) (hinputs : s.inputs = []) :
    step s = .next s.readClock := by
  rw [step, s.deliver_no_input hinputs, service, tick_idle (by simpa using hpending)]
  simp [pollOnce, decode, rxPeek, hrx]

/-- Settles O46: V-R1 by evaluation, and the next call by the rule for an Idle block without bytes. -/
theorem resetLeavesTheBlockIdle : Obligations.ResetLeavesTheBlockIdle := by
  refine ⟨rfl, rfl, rfl, rfl, rfl, rfl, rfl, fun p => ⟨rfl, rfl⟩, rfl, fun ms => ?_⟩
  refine ⟨_, step_idle_of_empty rfl rfl rfl, ?_⟩
  simp [State.reset]

end Sys2Proof.Machine
end

section
/-! Proofs about `20_memory.md`: the stream behind a whole frame (rule R35), outputs that are never read
back (R40), the clock sample of a call (R44) and the pins of a bank (R46). -/

namespace Sys2Proof.Machine

/-! ## The pins of a bank (R46) -/

/-- Settles O7, by the table entry `pinOf` answers below the slot count. -/
theorem slotPinsComeFromTheTable : Obligations.SlotPinsComeFromTheTable := by
  intro b i hi
  rw [pinOf_of_lt b i hi]
  exact List.getElem?_eq_getElem hi

/-! ## Bytes behind a whole frame (R35) -/

theorem pollOnce_of_decode {s : State} {i : Instr} {rest : List Byte} (h : decode s.cfg s.rx = .ok (i, rest)) :
    pollOnce s = exec i (s.setRx rest) := by
  simp only [pollOnce, h]

/-- A call whose stream begins with a whole frame runs its command, behind the clock sample and the `tick`. -/
theorem service_of_decode {s : State} {i : Instr} {rest : List Byte} (h : decode s.cfg s.rx = .ok (i, rest)) :
    service s = exec i ((tick s.readClock).setRx rest) :=
  pollOnce_of_decode (by simpa using h)

/-- No command reads or writes the stream behind its frame. -/
theorem exec_setRx {i : Instr} {s t : State} (h : exec i s = .next t) (rx : List Byte) :
    exec i (s.setRx rx) = .next (t.setRx rx) := by
  obtain ⟨b, l, rfl, rfl⟩ | ⟨b, d, rfl, rfl⟩ | ⟨b, v, rfl, rfl⟩ := exec_next i s t h
  · exact congrArg Host.Outcome.next (directWrite_digital _ b l (s.setRx rx))
  · exact congrArg Host.Outcome.next (start_setRx s b d rx)
  · exact congrArg Host.Outcome.next (directWrite_pwm _ b v (s.setRx rx))

/-- Settles O13: the same command is decoded, and neither the `tick` nor the command sees the later bytes. -/
theorem laterBytesDoNotChangeTheDispatch : Obligations.LaterBytesDoNotChangeTheDispatch := by
  intro s i rest extra hdecode
  obtain ⟨t, ht⟩ := exists_exec_next i ((tick s.readClock).setRx rest)
  obtain ⟨-, hrx, -⟩ := exec_next_env i _ t ht
  refine ⟨t, (service_of_decode hdecode).trans ht, hrx, ?_⟩
  have hlater : decode (s.setRx (s.rx ++ extra)).cfg (s.setRx (s.rx ++ extra)).rx = .ok (i, rest ++ extra) :=
    decode_append s.cfg s.rx rest extra i hdecode
  rw [service_of_decode hlater, State.setRx_readClock, tick_setRx]
  exact exec_setRx ht (rest ++ extra)

/-! ## The clock sample of a call (R44) -/

/-- The clock value and the clock inputs to come are the same. -/
def SameClock (s t : State) : Prop := t.clock = s.clock ∧ t.clockIn = s.clockIn

theorem SameClock.trans {s t u : State} (hst : SameClock s t) (htu : SameClock t u) : SameClock s u :=
  ⟨htu.1.trans hst.1, htu.2.trans hst.2⟩

/-- What happens before a call moves neither the clock nor the clock inputs to come (R22). -/
theorem deliver_sameClock (s : State) : SameClock s s.deliver :=
  s.deliver_keeps (SameClock s) ⟨rfl, rfl⟩ ⟨rfl, rfl⟩ fun u i hu => by simpa [SameClock] using hu

theorem cancel_sameClock (s : State) : SameClock s (cancel s) := by
  unfold cancel; split <;> exact ⟨rfl, rfl⟩

section OneSample

variable {s : State} (honce : s.cfg.clockSampling = .once)

include honce

/-- With one sample per call, entering a phase does not read the clock. -/
theorem enterPhase_sameClock_of_once : SameClock s (enterPhase s) := by
  rcases Nat.lt_or_ge (msb s.pending) s.cfg.bankTP.slots with hslot | hslot
  · rw [enterPhase_slot s hslot, State.now_once s honce]
    exact ⟨rfl, rfl⟩
  · rw [enterPhase_no_slot s hslot]
    exact ⟨rfl, rfl⟩

theorem tick_sameClock_of_once : SameClock s (tick s) := by
  obtain ⟨-, ht⟩ | ⟨-, -, ht⟩ | ⟨-, -, -, ht⟩ | ⟨-, -, -, ht⟩ := tick_cases s <;> rw [ht]
  · exact ⟨rfl, rfl⟩
  · exact ⟨rfl, rfl⟩
  · exact ⟨rfl, rfl⟩
  · exact enterPhase_sameClock_of_once (s := endPhase s) honce

theorem start_sameClock_of_once (b d : Word) : SameClock s (start b d s) := by
  by_cases hb : b = 0
  · subst hb; rw [start_zero]
    exact ⟨rfl, rfl⟩
  · rw [start_nonzero s b d hb]
    exact (cancel_sameClock s).trans
      (enterPhase_sameClock_of_once (s := ((cancel s).setPending b).setDuration d) (by simpa using honce))

/-- With one sample per call, the sample is the only thing a step does to the clock. -/
theorem step_sameClock_of_once {t : State} (h : step s = .next t) : SameClock s.deliver.readClock t := by
  have htick := tick_sameClock_of_once (s := s.deliver.readClock) (by simpa using honce)
  obtain ⟨b, d, rest, -, rfl⟩ | ⟨-, rx, es, -, rfl⟩ := step_next_cases h
  · exact htick.trans (start_sameClock_of_once (s := tick s.deliver.readClock) (by simpa using honce) b d)
  · exact htick

end OneSample

/-- Settles O38: inputs leave the clock alone, and behind the sample nothing reads it. -/
theorem oneClockSamplePerCall : Obligations.OneClockSamplePerCall := by
  intro s t ms later honce hclockIn h
  obtain ⟨hbefore, hbeforeIn⟩ := deliver_sameClock s
  have hread := s.deliver.readClock_input ms later (hbeforeIn.trans hclockIn)
  obtain ⟨hclock, hlater⟩ := step_sameClock_of_once honce h
  rw [hread] at hclock hlater
  refine ⟨?_, hlater, t.now_once ?_⟩
  · rw [hclock, hbefore]
    simp [BitVec.toNat_add]
  · rw [noStepWritesTheConfiguration s t h]
    exact honce

/-! ## Outputs are never read back (R40, R115) -/

/-- The state with another trace. -/
def State.withTrace (s : State) (trace : List TraceEntry) : State := { s with trace := trace }

/-- Two states that differ only in how their traces begin, the first with `p` and the second with `q`. -/
def SameButPast (p q : List TraceEntry) (s u : State) : Prop :=
  ∃ es, s.trace = p ++ es ∧ u = s.withTrace (q ++ es)

theorem State.withTrace_readClock (s : State) (trace : List TraceEntry) :
    (s.withTrace trace).readClock = s.readClock.withTrace trace := by
  simp only [readClock, withTrace]; split <;> rfl

theorem State.withTrace_now (s : State) (trace : List TraceEntry) :
    (s.withTrace trace).now = s.now.withTrace trace := by
  simp only [now, withTrace_readClock]
  rw [show (s.withTrace trace).cfg = s.cfg from rfl]
  split <;> rfl

theorem State.withTrace_meetUnknownOpcode (s : State) (trace : List TraceEntry) :
    (s.withTrace trace).meetUnknownOpcode = s.meetUnknownOpcode.withTrace trace := by
  simp only [meetUnknownOpcode, withTrace]; split <;> rfl

namespace SameButPast

variable {p q : List TraceEntry} {s u : State}

/-- Outside the trace the two states agree. -/
theorem exists_eq_withTrace (h : SameButPast p q s u) : ∃ trace, u = s.withTrace trace :=
  let ⟨es, _, hu⟩ := h; ⟨q ++ es, hu⟩

theorem cfg_eq (h : SameButPast p q s u) : u.cfg = s.cfg := by
  obtain ⟨_, rfl⟩ := h.exists_eq_withTrace; rfl

theorem pending_eq (h : SameButPast p q s u) : u.pending = s.pending := by
  obtain ⟨_, rfl⟩ := h.exists_eq_withTrace; rfl

theorem duration_eq (h : SameButPast p q s u) : u.duration = s.duration := by
  obtain ⟨_, rfl⟩ := h.exists_eq_withTrace; rfl

theorem phaseStart_eq (h : SameButPast p q s u) : u.phaseStart = s.phaseStart := by
  obtain ⟨_, rfl⟩ := h.exists_eq_withTrace; rfl

theorem clock_eq (h : SameButPast p q s u) : u.clock = s.clock := by
  obtain ⟨_, rfl⟩ := h.exists_eq_withTrace; rfl

theorem rx_eq (h : SameButPast p q s u) : u.rx = s.rx := by
  obtain ⟨_, rfl⟩ := h.exists_eq_withTrace; rfl

/-- An operation that neither reads nor writes the trace keeps the relation. -/
theorem map (h : SameButPast p q s u) (f : State → State) (hkeep : (f s).trace = s.trace)
    (hf : ∀ trace, f (s.withTrace trace) = (f s).withTrace trace) : SameButPast p q (f s) (f u) := by
  obtain ⟨es, hs, rfl⟩ := h
  exact ⟨es, hkeep.trans hs, hf _⟩

/-- So does an operation that appends the same events to both traces. -/
theorem append (h : SameButPast p q s u) (more : List TraceEntry) :
    SameButPast p q (s.withTrace (s.trace ++ more)) (u.withTrace (u.trace ++ more)) := by
  obtain ⟨es, hs, rfl⟩ := h
  exact ⟨es ++ more, by simp [State.withTrace, hs], by simp [State.withTrace]⟩

theorem emit (h : SameButPast p q s u) (e : TraceEntry) : SameButPast p q (s.emit e) (u.emit e) :=
  h.append [e]

theorem setPending (h : SameButPast p q s u) (v : Word) : SameButPast p q (s.setPending v) (u.setPending v) :=
  h.map (State.setPending v) rfl fun _ => rfl

theorem setDuration (h : SameButPast p q s u) (v : Word) :
    SameButPast p q (s.setDuration v) (u.setDuration v) :=
  h.map (State.setDuration v) rfl fun _ => rfl

theorem setPhaseStart (h : SameButPast p q s u) (v : Word) :
    SameButPast p q (s.setPhaseStart v) (u.setPhaseStart v) :=
  h.map (State.setPhaseStart v) rfl fun _ => rfl

theorem setRx (h : SameButPast p q s u) (rx : List Byte) : SameButPast p q (s.setRx rx) (u.setRx rx) :=
  h.map (State.setRx rx) rfl fun _ => rfl

theorem readClock (h : SameButPast p q s u) : SameButPast p q s.readClock u.readClock :=
  h.map State.readClock s.readClock_trace s.withTrace_readClock

theorem now (h : SameButPast p q s u) : SameButPast p q s.now u.now :=
  h.map State.now s.now_trace s.withTrace_now

theorem meetUnknownOpcode (h : SameButPast p q s u) :
    SameButPast p q s.meetUnknownOpcode u.meetUnknownOpcode := by
  refine h.map State.meetUnknownOpcode ?_ s.withTrace_meetUnknownOpcode
  obtain ⟨rx, hrx⟩ := s.exists_meetUnknownOpcode_eq_setRx
  rw [hrx, State.setRx_trace]

theorem pulseDrive (h : SameButPast p q s u) (i : Nat) (l : Level) :
    SameButPast p q (s.pulseDrive i l) (u.pulseDrive i l) := by
  rw [State.pulseDrive_eq, State.pulseDrive_eq, h.cfg_eq]
  exact h.emit _

theorem enterPhase (h : SameButPast p q s u) :
    SameButPast p q (Machine.enterPhase s) (Machine.enterPhase u) := by
  have hdriven := (h.pulseDrive (msb s.pending) .high).now
  simp only [Machine.enterPhase, h.pending_eq, h.cfg_eq, hdriven.clock_eq]
  split
  · exact (h.setPending 0).emit _
  · exact hdriven.setPhaseStart _

theorem cancel (h : SameButPast p q s u) : SameButPast p q (Machine.cancel s) (Machine.cancel u) := by
  simp only [Machine.cancel, h.pending_eq]
  split
  · exact h
  · exact h.pulseDrive _ _

theorem start (h : SameButPast p q s u) (b d : Word) :
    SameButPast p q (Machine.start b d s) (Machine.start b d u) := by
  unfold Machine.start
  split
  · exact h
  · exact ((h.cancel.setPending b).setDuration d).enterPhase

theorem endPhase (h : SameButPast p q s u) : SameButPast p q (Machine.endPhase s) (Machine.endPhase u) := by
  simp only [Machine.endPhase, h.pending_eq]
  exact (h.pulseDrive _ _).setPending _

theorem tick (h : SameButPast p q s u) : SameButPast p q (Machine.tick s) (Machine.tick u) := by
  simp only [Machine.tick, h.pending_eq, h.clock_eq, h.phaseStart_eq, h.duration_eq, h.endPhase.pending_eq]
  split
  · exact h
  split
  · exact h
  split
  · exact h.endPhase.setPhaseStart 0
  · exact h.endPhase.enterPhase

theorem directWrite (h : SameButPast p q s u) (b : Bank) (bitset : Word) (entry : Pin → TraceEntry) :
    SameButPast p q (Machine.directWrite b bitset (fun pin w => w.emit (entry pin)) s)
      (Machine.directWrite b bitset (fun pin w => w.emit (entry pin)) u) := by
  rw [directWrite_emit, directWrite_emit]
  exact h.append _

theorem exec (h : SameButPast p q s u) (i : Instr) :
    ∃ t v, Machine.exec i s = .next t ∧ Machine.exec i u = .next v ∧ SameButPast p q t v := by
  cases i with
  | digitalWrite b l =>
    exact ⟨_, _, rfl, rfl, h.cfg_eq ▸ h.directWrite s.cfg.bankDW b fun pin => ⟨.wd pin l, none⟩⟩
  | timedPulse b d => exact ⟨_, _, rfl, rfl, h.start b d⟩
  | pwmSet b v =>
    exact ⟨_, _, rfl, rfl, h.cfg_eq ▸ h.directWrite s.cfg.bankPWM b fun pin => ⟨.wp pin v, none⟩⟩

theorem pollOnce (h : SameButPast p q s u) :
    ∃ t v, Machine.pollOnce s = .next t ∧ Machine.pollOnce u = .next v ∧ SameButPast p q t v := by
  unfold Machine.pollOnce
  rw [h.cfg_eq, h.rx_eq]
  split
  · exact ⟨_, _, rfl, rfl, h⟩
  · exact ⟨_, _, rfl, rfl, h.meetUnknownOpcode⟩
  · exact ⟨_, _, rfl, rfl, h⟩
  · exact (h.setRx _).exec _

theorem service (h : SameButPast p q s u) :
    ∃ t v, Machine.service s = .next t ∧ Machine.service u = .next v ∧ SameButPast p q t v :=
  h.readClock.tick.pollOnce

end SameButPast

/-- Settles O42: from two pasts with nothing behind them, a call appends the same events to each. -/
theorem outputsAreNeverReadBack : Obligations.OutputsAreNeverReadBack := by
  intro s past
  have hstart : SameButPast s.trace past s { s with trace := past } := ⟨[], by simp, by simp [State.withTrace]⟩
  obtain ⟨t, v, hs, hu, es, htrace, rfl⟩ := hstart.service
  exact ⟨t, es, hs, htrace, hu⟩

end Sys2Proof.Machine
end

section
/-! Proofs about `30_encoding.md`: the fields of a frame (rules R52 to R54), the frame sizes (R57 to R59), the
round trip of decoder and encoder (R61, R62), and the stall at an unknown opcode (R59, R134). -/

namespace Sys2Proof.Machine

open Laws.EncodeSize (opcode)

/-! ## Bytes and 32-bit fields (R54, R61) -/

/-- Four neighbouring bytes of a bit string, joined, are its run of 32 bits. -/
theorem be32_extractLsb' {n : Nat} (w : BitVec n) (k : Nat) :
    be32 (w.extractLsb' (k + 24) 8) (w.extractLsb' (k + 16) 8) (w.extractLsb' (k + 8) 8) (w.extractLsb' k 8)
      = w.extractLsb' k 32 := by
  have hhigh : w.extractLsb' (k + 24) 8 ++ w.extractLsb' (k + 16) 8 = w.extractLsb' (k + 16) 16 :=
    BitVec.extractLsb'_append_extractLsb'_eq_extractLsb' (by omega)
  have hmid : w.extractLsb' (k + 16) 16 ++ w.extractLsb' (k + 8) 8 = w.extractLsb' (k + 8) 24 :=
    BitVec.extractLsb'_append_extractLsb'_eq_extractLsb' (by omega)
  rw [be32, hhigh, hmid]
  exact BitVec.extractLsb'_append_extractLsb'_eq_extractLsb' (by omega)

theorem be32_bytes (v : Word) :
    be32 (v.extractLsb' 24 8) (v.extractLsb' 16 8) (v.extractLsb' 8 8) (v.extractLsb' 0 8) = v :=
  (be32_extractLsb' v 0).trans BitVec.extractLsb'_eq_self

theorem enc32_be32 (b0 b1 b2 b3 : Byte) : enc32 (be32 b0 b1 b2 b3) = [b0, b1, b2, b3] := by
  have h0 := b0.isLt
  have h1 := b1.isLt
  have h2 := b2.isLt
  have h3 := b3.isLt
  simp only [enc32, List.cons.injEq, and_true, ← BitVec.toNat_inj, BitVec.extractLsb'_toNat, be32_toNat,
    Nat.shiftRight_eq_div_pow]
  omega

/-! ## Opcode bytes and frame sizes (R56, R57, R59) -/

/-- The byte an opcode is sent as (R56). -/
def opcodeByte (c : Config) : Opcode → Byte
  | .digitalWrite => c.opcDigitalWrite
  | .timedPulse => c.opcTimedPulse
  | .pwmSet => c.opcPwmSet

theorem opcodeOf_opcodeByte {c : Config} (hdistinct : c.opcodesDistinct = true) (o : Opcode) :
    opcodeOf c (opcodeByte c o) = some o := by
  obtain ⟨hdt, hdp, htp⟩ := (opcodesDistinct_iff c).mp hdistinct
  cases o with
  | digitalWrite => simp [opcodeOf, opcodeByte]
  | timedPulse => simp [opcodeOf, opcodeByte, hdt.symm]
  | pwmSet => simp [opcodeOf, opcodeByte, hdp.symm, htp.symm]

theorem eq_opcodeByte_of_opcodeOf {c : Config} {op : Byte} {o : Opcode} (h : opcodeOf c op = some o) :
    op = opcodeByte c o := by
  cases o <;> exact opcodeOf_some c op _ h

theorem frameSize_opcodeByte {c : Config} (hdistinct : c.opcodesDistinct = true) (o : Opcode) :
    frameSize c (opcodeByte c o) = some o.size := by
  rw [frameSize, opcodeOf_opcodeByte hdistinct, Option.map_some]

theorem frameSize_eq_none_iff (c : Config) (op : Byte) :
    frameSize c op = none ↔ op ≠ c.opcDigitalWrite ∧ op ≠ c.opcTimedPulse ∧ op ≠ c.opcPwmSet := by
  rw [frameSize, Option.map_eq_none_iff, opcodeOf_none_iff]

/-- The numbers of the three opcode bytes. -/
def opcodeNumbers (c : Config) : Finset Nat :=
  {c.opcDigitalWrite.toNat, c.opcTimedPulse.toNat, c.opcPwmSet.toNat}

theorem opcodeNumbers_card {c : Config} (hdistinct : c.opcodesDistinct = true) : (opcodeNumbers c).card = 3 := by
  obtain ⟨hdt, hdp, htp⟩ := (opcodesDistinct_iff c).mp hdistinct
  exact Finset.card_eq_three.mpr
    ⟨_, _, _, mt BitVec.eq_of_toNat_eq hdt, mt BitVec.eq_of_toNat_eq hdp, mt BitVec.eq_of_toNat_eq htp, rfl⟩

theorem opcodeNumbers_subset (c : Config) : opcodeNumbers c ⊆ Finset.range 256 := by
  intro k hk
  simp only [opcodeNumbers, Finset.mem_insert, Finset.mem_singleton] at hk
  rw [Finset.mem_range]
  obtain rfl | rfl | rfl := hk <;> exact BitVec.isLt _

theorem ofNat_ne_iff {k : Nat} (hk : k < 256) (op : Byte) : BitVec.ofNat 8 k ≠ op ↔ k ≠ op.toNat := by
  rw [Ne, ← BitVec.toNat_inj, BitVec.toNat_ofNat, Nat.mod_eq_of_lt hk]

/-- The bytes without a frame size are those that are no opcode's number (R59). -/
theorem unknownBytes_toFinset (c : Config) :
    ((List.range 256).filter fun k => (frameSize c (BitVec.ofNat 8 k)).isNone).toFinset
      = Finset.range 256 \ opcodeNumbers c := by
  ext k
  simp only [List.mem_toFinset, List.mem_filter, List.mem_range, Finset.mem_sdiff, Finset.mem_range,
    Option.isNone_iff_eq_none, frameSize_eq_none_iff, opcodeNumbers, Finset.mem_insert, Finset.mem_singleton,
    not_or]
  refine and_congr_right fun hk => ?_
  rw [ofNat_ne_iff hk, ofNat_ne_iff hk, ofNat_ne_iff hk]

theorem unknownBytes_length {c : Config} (hdistinct : c.opcodesDistinct = true) :
    ((List.range 256).filter fun k => (frameSize c (BitVec.ofNat 8 k)).isNone).length = 253 := by
  rw [← List.toFinset_card_of_nodup (List.nodup_range.filter _), unknownBytes_toFinset,
    Finset.card_sdiff_of_subset (opcodeNumbers_subset c), opcodeNumbers_card hdistinct, Finset.card_range]

/-- Settles O2: each opcode byte has its opcode's size, and the 256 bytes less three have none. -/
theorem frameSizeIsAFunctionOfTheOpcode : Obligations.FrameSizeIsAFunctionOfTheOpcode := by
  intro c hdistinct
  exact ⟨frameSize_opcodeByte hdistinct .digitalWrite, frameSize_opcodeByte hdistinct .timedPulse,
    frameSize_opcodeByte hdistinct .pwmSet,
    fun op hdw htp hpwm => (frameSize_eq_none_iff c op).mpr ⟨hdw, htp, hpwm⟩,
    unknownBytes_length hdistinct⟩

/-! ## Decoder and encoder (R61, R62) -/

/-- A whole frame at the head of the stream decodes to its fields, whatever follows it (R66). -/
theorem decode_frame_append {c : Config} {f : List Byte} {op : Byte} {o : Opcode} (hhead : f.head? = some op)
    (ho : opcodeOf c op = some o) (hlen : f.length = o.size) (rest : List Byte) :
    decode c (f ++ rest) = .ok (decodeFrame o f, rest) := by
  have hpeek : rxPeek (f ++ rest) = some op := by rw [rxPeek, List.head?_append, hhead, Option.some_or]
  simp [decode, hpeek, ho, rxAvailable, rxRead, ← hlen]

theorem encode_head? (c : Config) (i : Instr) : (encode c i).head? = some (opcodeByte c (opcode i)) := by
  cases i <;> rfl

theorem encode_length (c : Config) (i : Instr) : (encode c i).length = (opcode i).size := by
  cases i with
  | digitalWrite b l => exact Laws.EncodeSize.digitalWrite b l c
  | timedPulse b d => exact Laws.EncodeSize.timedPulse b d c
  | pwmSet b v => exact Laws.EncodeSize.pwmSet b v c

/-- The fields of an encoded command are the command's. -/
theorem decodeFrame_encode (c : Config) (i : Instr) : decodeFrame (opcode i) (encode c i) = i := by
  cases i with
  | digitalWrite b l => exact congrArg (Instr.digitalWrite · l) (be32_bytes b)
  | timedPulse b d => exact congrArg₂ Instr.timedPulse (be32_bytes b) (be32_bytes d)
  | pwmSet b v => exact congrArg (Instr.pwmSet · v) (be32_bytes b)

/-- A whole frame is the encoding of its fields: no byte of it is dropped. -/
theorem encode_decodeFrame (c : Config) {f : List Byte} {o : Opcode} (hhead : f.head? = some (opcodeByte c o))
    (hlen : f.length = o.size) : encode c (decodeFrame o f) = f := by
  obtain ⟨fields, rfl⟩ := List.head?_eq_some_iff.mp hhead
  cases o with
  | digitalWrite =>
    match fields, hlen with
    | [b1, b2, b3, b4, b5], _ => exact congrArg (_ :: · ++ [b5]) (enc32_be32 b1 b2 b3 b4)
  | timedPulse =>
    match fields, hlen with
    | [b1, b2, b3, b4, b5, b6, b7, b8], _ =>
      exact congrArg₂ (_ :: · ++ ·) (enc32_be32 b1 b2 b3 b4) (enc32_be32 b5 b6 b7 b8)
  | pwmSet =>
    match fields, hlen with
    | [b1, b2, b3, b4, b5], _ => exact congrArg (_ :: · ++ [b5]) (enc32_be32 b1 b2 b3 b4)

theorem decode_encode_append {c : Config} (hdistinct : c.opcodesDistinct = true) (i : Instr) (rest : List Byte) :
    decode c (encode c i ++ rest) = .ok (i, rest) := by
  rw [decode_frame_append (encode_head? c i) (opcodeOf_opcodeByte hdistinct _) (encode_length c i),
    decodeFrame_encode]

/-- Settles O5, by the byte swaps and the frame of each command. -/
theorem decodeOfEncodeIsTheCommand : Obligations.DecodeOfEncodeIsTheCommand := by
  refine ⟨enc32_be32, be32_bytes, fun _ => rfl, fun c i rest hdistinct => ?_⟩
  refine ⟨decode_encode_append hdistinct i rest, ?_⟩
  rw [encode_head?, Option.bind_some, frameSize_opcodeByte hdistinct, encode_length]

/-- Settles O6: the stream is the frame it begins with, which is the encoding of its fields, and the rest. -/
theorem encodeOfDecodeIsTheFrame : Obligations.EncodeOfDecodeIsTheFrame := by
  intro c bytes rest i h
  obtain ⟨op, o, hhead, ho, hlen, rfl, rfl⟩ := decode_ok c bytes rest i h
  have hframe : (bytes.take o.size).head? = some (opcodeByte c o) := by
    rw [List.head?_take, if_neg o.size_pos.ne', hhead, eq_opcodeByte_of_opcodeOf ho]
  rw [encode_decodeFrame c hframe (List.length_take_of_le hlen), List.take_append_drop]

/-- Settles O3, by evaluation: the opcode bytes and the frames are literal. -/
theorem writtenOutFramesDecode : Obligations.WrittenOutFramesDecode := ⟨rfl, rfl, rfl⟩

/-! ## The frame as one number (R52, R53) -/

theorem tableBytes_length (nbits w : Nat) : (tableBytes nbits w).length = (nbits + 7) / 8 := by
  simp [tableBytes]

/-- Byte `k` of a frame's number, its first byte most significant. -/
theorem frameByte_tableBytes {n : Nat} (w : BitVec n) {k : Nat} (hk : k < (n + 7) / 8) :
    frameByte (tableBytes n w.toNat) k = w.extractLsb' (8 * ((n + 7) / 8 - 1 - k)) 8 := by
  rw [frameByte, List.getD_eq_getElem _ _ (by rwa [tableBytes_length])]
  simp [tableBytes, BitVec.extractLsb', Nat.shiftRight_eq_div_pow]

/-- The 32-bit field at byte offset `k` of a frame's number. -/
theorem frameWord_tableBytes {n : Nat} (w : BitVec n) {k : Nat} (hk : k + 4 ≤ (n + 7) / 8) :
    frameWord (tableBytes n w.toNat) k = w.extractLsb' (8 * ((n + 7) / 8 - 4 - k)) 32 := by
  rw [frameWord, frameByte_tableBytes w (by omega), frameByte_tableBytes w (by omega),
    frameByte_tableBytes w (by omega), frameByte_tableBytes w (by omega), ← be32_extractLsb']
  congr 2 <;> omega

theorem tableBytes_head? {n : Nat} (w : BitVec n) (hn : 0 < (n + 7) / 8) :
    (tableBytes n w.toNat).head? = some (w.extractLsb' (8 * ((n + 7) / 8 - 1)) 8) := by
  have hlen : 0 < (tableBytes n w.toNat).length := by rwa [tableBytes_length]
  rw [List.head?_eq_getElem?, List.getElem?_eq_getElem hlen, ← List.getD_eq_getElem _ 0 hlen]
  exact congrArg some (frameByte_tableBytes w hn)

/-- A table word as long as its opcode's frame decodes to that frame's fields. -/
theorem decodeTableWord_of_size {n : Nat} (w : BitVec n) {o : Opcode} (hsize : (n + 7) / 8 = o.size)
    (ho : opcodeOf Config.reference (w.extractLsb' (8 * ((n + 7) / 8 - 1)) 8) = some o) :
    decodeTableWord n w.toNat = some (decodeFrame o (tableBytes n w.toNat)) := by
  rw [decodeTableWord, paddedTableBytes,
    decode_frame_append (tableBytes_head? w (hsize ▸ o.size_pos)) ho ((tableBytes_length n _).trans hsize)]

/-- Settles O4, one command at a time: the opcode is the first byte, and each field the run of its bytes. -/
theorem fieldsAreRunsOfFrameBits : Obligations.FieldsAreRunsOfFrameBits := by
  refine ⟨fun w hop => ?_, fun w hop => ?_, fun w hop => ?_⟩
  · rw [decodeTableWord_of_size w (o := .digitalWrite) rfl (congrArg (opcodeOf _) hop), decodeFrame,
      frameWord_tableBytes w (by decide), frameByte_tableBytes w (by decide)]
  · rw [decodeTableWord_of_size w (o := .pwmSet) rfl (congrArg (opcodeOf _) hop), decodeFrame,
      frameWord_tableBytes w (by decide), frameByte_tableBytes w (by decide)]
  · rw [decodeTableWord_of_size w (o := .timedPulse) rfl (congrArg (opcodeOf _) hop), decodeFrame,
      frameWord_tableBytes w (by decide), frameWord_tableBytes w (by decide)]

/-! ## What a step dispatches (R58) -/

theorem State.dispatched_eq_some_iff (s : State) (i : Instr) :
    s.dispatched = some i ↔ ∃ rest, decode s.cfg s.deliver.rx = .ok (i, rest) := by
  rw [State.dispatched, State.deliver_cfg]
  cases decode s.cfg s.deliver.rx with
  | error r => simp
  | ok p => cases p; simp

/-- Settles O19: a whole `TIMED_PULSE` frame is 9 bytes, more than the buffer holds. -/
theorem shortBufferNeverDispatchesTimedPulse : Obligations.ShortBufferNeverDispatchesTimedPulse := by
  intro s cap b d hcap hfits hdispatched
  obtain ⟨rest, hdecode⟩ := (s.dispatched_eq_some_iff _).mp hdispatched
  have hwhole : 9 ≤ s.deliver.rx.length := (decode_ok_size hdecode).1
  have hunread : s.deliver.rx.length ≤ cap := hfits
  omega

/-! ## The stall at an unknown opcode (R59, R134, D24) -/

theorem State.stalled_iff (s : State) :
    s.stalled = true ↔ ∃ op, rxPeek s.rx = some op ∧ opcodeOf s.cfg op = none := by
  rw [State.stalled]
  cases rxPeek s.rx <;> simp

/-- Bytes behind the head of the stream do not help against a stall. -/
theorem State.stalled_of_prefix {s t : State} (h : s.stalled = true) (hcfg : t.cfg = s.cfg)
    (hrx : s.rx <+: t.rx) : t.stalled = true := by
  obtain ⟨op, hpeek, hop⟩ := s.stalled_iff.mp h
  obtain ⟨more, hmore⟩ := hrx
  refine t.stalled_iff.mpr ⟨op, ?_, hcfg ▸ hop⟩
  rw [rxPeek] at hpeek ⊢
  rw [← hmore, List.head?_append, hpeek, Option.some_or]

theorem decode_of_stalled {s : State} (h : s.stalled = true) :
    ∃ op, decode s.cfg s.rx = .error (.unknownOpcode op) := by
  obtain ⟨op, hpeek, hop⟩ := s.stalled_iff.mp h
  exact ⟨op, by simp only [decode, hpeek, hop]⟩

theorem State.rx_prefix_deliver_rx (s : State) : s.rx <+: s.deliver.rx := by
  rw [s.deliver_rx]
  exact List.prefix_append _ _

theorem State.stalled_deliver {s : State} (h : s.stalled = true) : s.deliver.stalled = true :=
  State.stalled_of_prefix h s.deliver_cfg s.rx_prefix_deliver_rx

section Stalled

variable {s : State} (hpolicy : s.cfg.unknownOpcode = .leave) (hstalled : s.stalled = true)
include hstalled

theorem dispatched_of_stalled : s.dispatched = none := by
  obtain ⟨op, hdecode⟩ := decode_of_stalled (State.stalled_deliver hstalled)
  simp only [State.dispatched, hdecode]

include hpolicy

theorem pollOnce_of_stalled : pollOnce s = .next s := by
  obtain ⟨op, hdecode⟩ := decode_of_stalled hstalled
  simp only [pollOnce, hdecode, s.meetUnknownOpcode_leave hpolicy]

/-- The scheduler runs on, and nothing else happens. -/
theorem step_of_stalled : step s = .next (tick s.deliver.readClock) :=
  pollOnce_of_stalled (by simpa using hpolicy)
    (State.stalled_of_prefix (State.stalled_deliver hstalled) (by simp) (by simp))

end Stalled

/-- However long a stalled machine runs, it consumes and dispatches nothing. -/
theorem runSteps_of_stalled (n : Nat) (s : State) (hpolicy : s.cfg.unknownOpcode = .leave)
    (hstalled : s.stalled = true) :
    ∃ t, runSteps n s = .next t ∧ t.stalled = true ∧ s.rx <+: t.rx ∧ dispatchLog n s = [] := by
  induction n generalizing s with
  | zero => exact ⟨s, rfl, hstalled, List.prefix_rfl, rfl⟩
  | succ n ih =>
    have hstep := step_of_stalled hpolicy hstalled
    have hrx : s.rx <+: (tick s.deliver.readClock).rx := by simpa using s.rx_prefix_deliver_rx
    obtain ⟨t, hrun, ht, hprefix, hlog⟩ :=
      ih (tick s.deliver.readClock) (by simpa using hpolicy) (State.stalled_of_prefix hstalled (by simp) hrx)
    refine ⟨t, (runSteps_succ n s _ hstep).trans hrun, ht, hrx.trans hprefix, ?_⟩
    rw [dispatchLog_succ n s _ hstep, dispatched_of_stalled hstalled, hlog]
    rfl

/-- Settles O16, by the step of a stalled state and induction on the number of steps. -/
theorem unknownOpcodeStallsForEver : Obligations.UnknownOpcodeStallsForEver := fun s hpolicy hstalled =>
  ⟨pollOnce_of_stalled hpolicy hstalled, step_of_stalled hpolicy hstalled,
    fun n => runSteps_of_stalled n s hpolicy hstalled⟩

end Sys2Proof.Machine
end

section
/-! Proofs about `40_service_and_dispatch.md`: what a call does in its order (rule R65), the branches of
`poll_once` (R66), frames that drain one per call (R71), frames cut into pieces (R72), and the clock sample
at which a call's `TIMED_PULSE` begins (R74). -/

namespace Sys2Proof.Machine

open Laws.EncodeSize (opcode)

/-! ## A stream without a whole frame (R66, steps 1 and 3) -/

/-- The stream is empty, or shorter than the frame that its known opcode byte announces. -/
def AwaitsBytes (c : Config) (rx : List Byte) : Prop :=
  rx = [] ∨ ∃ op o, rx.head? = some op ∧ opcodeOf c op = some o ∧ rx.length < o.size

theorem awaitsBytes_nil (c : Config) : AwaitsBytes c [] := .inl rfl

theorem decode_of_awaitsBytes {c : Config} {rx : List Byte} (h : AwaitsBytes c rx) :
    decode c rx = .error .noBytes ∨ ∃ op n, decode c rx = .error (.incompleteFrame op n) := by
  obtain rfl | ⟨op, o, hhead, ho, hshort⟩ := h
  · exact .inl rfl
  · refine .inr ⟨op, rx.length, ?_⟩
    simp only [decode, rxPeek, hhead, ho]
    exact if_pos hshort

theorem pollOnce_of_awaitsBytes {s : State} (h : AwaitsBytes s.cfg s.rx) : pollOnce s = .next s := by
  obtain hdecode | ⟨op, n, hdecode⟩ := decode_of_awaitsBytes h <;> simp only [pollOnce, hdecode]

/-- A call that finds no whole frame reads the clock and runs the scheduler. -/
theorem service_of_awaitsBytes {s : State} (h : AwaitsBytes s.cfg s.rx) :
    service s = .next (tick s.readClock) :=
  pollOnce_of_awaitsBytes (by simpa using h)

theorem dispatched_of_awaitsBytes {s : State} (h : AwaitsBytes s.deliver.cfg s.deliver.rx) :
    s.dispatched = none := by
  obtain hdecode | ⟨op, n, hdecode⟩ := decode_of_awaitsBytes h <;> simp only [State.dispatched, hdecode]

/-! ## One call (R65) -/

/-- Settles O8: the order is the definition's, and in Idle with an empty stream neither part does anything. -/
theorem serviceTicksThenPolls : Obligations.ServiceTicksThenPolls := by
  refine ⟨fun s => rfl, fun s hpending hrx => ?_⟩
  rw [service_of_awaitsBytes (hrx ▸ awaitsBytes_nil s.cfg), tick_idle (by simpa using hpending)]

/-- A step is the call that follows the inputs. -/
theorem step_of_decode {s : State} {i : Instr} {rest : List Byte}
    (h : decode s.deliver.cfg s.deliver.rx = .ok (i, rest)) :
    step s = exec i ((tick s.deliver.readClock).setRx rest) := service_of_decode h

/-- Settles O9, by the call whose stream begins with a whole frame. -/
theorem stepRunsTheDecodedCommand : Obligations.StepRunsTheDecodedCommand := fun _ _ _ => step_of_decode

/-! ## The branches of `poll_once` (R66) -/

theorem pollOnce_of_unknownOpcode {s : State} {op : Byte} {more : List Byte} (hrx : s.rx = op :: more)
    (hop : opcodeOf s.cfg op = none) (hpolicy : s.cfg.unknownOpcode = .leave) : pollOnce s = .next s :=
  pollOnce_of_stalled hpolicy (s.stalled_iff.mpr ⟨op, by rw [hrx, rxPeek, List.head?_cons], hop⟩)

/-- A whole frame at the head of the stream is consumed and its command run. -/
theorem pollOnce_of_frame {s : State} (hdistinct : s.cfg.opcodesDistinct = true) (o : Opcode)
    {fields rest : List Byte} (hrx : s.rx = opcodeByte s.cfg o :: fields ++ rest)
    (hlen : fields.length + 1 = o.size) :
    pollOnce s = exec (decodeFrame o (opcodeByte s.cfg o :: fields)) (s.setRx rest) :=
  pollOnce_of_decode (hrx ▸ decode_frame_append (f := opcodeByte s.cfg o :: fields) rfl
    (opcodeOf_opcodeByte hdistinct o) hlen rest)

/-- Settles O11, one branch at a time: three early returns, then one whole frame of each opcode. -/
theorem pollOnceDecodesAtMostOneFrame : Obligations.PollOnceDecodesAtMostOneFrame := by
  intro s hdistinct hpolicy
  refine ⟨fun hrx => ?_, fun op more hrx hdw htp hpwm => ?_, fun op more n hrx hsize hshort => ?_,
    fun b1 b2 b3 b4 b5 rest hrx => ?_, fun b1 b2 b3 b4 b5 rest hrx => ?_,
    fun b1 b2 b3 b4 b5 b6 b7 b8 rest hrx => ?_⟩
  · exact pollOnce_of_awaitsBytes (hrx ▸ awaitsBytes_nil s.cfg)
  · exact pollOnce_of_unknownOpcode hrx ((opcodeOf_none_iff s.cfg op).mpr ⟨hdw, htp, hpwm⟩) hpolicy
  · obtain ⟨o, ho, rfl⟩ := Option.map_eq_some_iff.mp hsize
    exact pollOnce_of_awaitsBytes (.inr ⟨op, o, by rw [hrx, List.head?_cons], ho, hshort⟩)
  · exact pollOnce_of_frame hdistinct .digitalWrite (fields := [b1, b2, b3, b4, b5]) hrx rfl
  · exact pollOnce_of_frame hdistinct .pwmSet (fields := [b1, b2, b3, b4, b5]) hrx rfl
  · exact pollOnce_of_frame hdistinct .timedPulse (fields := [b1, b2, b3, b4, b5, b6, b7, b8]) hrx rfl

/-! ## A table word at the head of the stream -/

theorem decodeTableWord_eq_some_iff (nbits w : Nat) (i : Instr) :
    decodeTableWord nbits w = some i ↔
      ∃ rest, decode Config.reference (paddedTableBytes nbits w) = .ok (i, rest) := by
  rw [decodeTableWord]
  cases decode Config.reference (paddedTableBytes nbits w) with
  | error r => simp
  | ok p => cases p; simp

/-- The frame of a table word is what the decoder takes of its padded bytes, whatever follows it. -/
theorem decode_tableFrame_append {nbits w : Nat} {i : Instr} (h : decodeTableWord nbits w = some i)
    (rest : List Byte) :
    decode Config.reference (tableFrame Config.reference nbits w ++ rest) = .ok (i, rest) := by
  obtain ⟨padding, hdecode⟩ := (decodeTableWord_eq_some_iff nbits w i).mp h
  obtain ⟨op, o, hhead, ho, hlen, rfl, -⟩ := decode_ok _ _ _ _ hdecode
  have hframe : tableFrame Config.reference nbits w = (paddedTableBytes nbits w).take o.size := by
    simp [tableFrame, rxPeek, hhead, frameSize, ho]
  rw [hframe]
  refine decode_frame_append ?_ ho (List.length_take_of_le hlen) rest
  rw [List.head?_take, if_neg o.size_pos.ne', hhead]

/-- Settles O10: the word's frame decodes to its command, with the older and the newer bytes behind it. -/
theorem fetchWordRunsItsCommand : Obligations.FetchWordRunsItsCommand := by
  intro s nbits w i hcfg hword
  refine step_of_decode ?_
  rw [State.deliver_cfg, State.deliver_rx]
  simp only [State.withFetchWord, State.setRx_cfg, State.setRx_rx, State.setRx_inputs, hcfg, List.append_assoc]
  exact decode_tableFrame_append hword _

/-! ## The stream of a list of commands (R51) -/

theorem encodeStream_cons (c : Config) (i : Instr) (more : List Instr) :
    encodeStream c (i :: more) = encode c i ++ encodeStream c more := List.flatMap_cons

theorem awaitsBytes_of_encode_eq {c : Config} (hdistinct : c.opcodesDistinct = true) {i : Instr}
    {rx missing : List Byte} (h : encode c i = rx ++ missing) (hmissing : missing ≠ []) : AwaitsBytes c rx := by
  have hlen := congrArg List.length h
  rw [encode_length, List.length_append] at hlen
  have hpos := List.length_pos_iff.mpr hmissing
  cases rx with
  | nil => exact awaitsBytes_nil c
  | cons op more =>
    have hhead : some (opcodeByte c (opcode i)) = some op := by rw [← encode_head?, h]; rfl
    exact .inr ⟨opcodeByte c (opcode i), opcode i, hhead.symm, opcodeOf_opcodeByte hdistinct _, by omega⟩

/-- Wherever a stream of valid frames is cut, the first part awaits bytes that the second part holds, or
begins with the next whole frame. -/
theorem awaitsBytes_or_frame_of_cut {c : Config} (hdistinct : c.opcodesDistinct = true) {i : Instr}
    {more : List Instr} {rx later : List Byte} (h : rx ++ later = encodeStream c (i :: more)) :
    (AwaitsBytes c rx ∧ later ≠ []) ∨
      ∃ rest, rx = encode c i ++ rest ∧ rest ++ later = encodeStream c more := by
  rw [encodeStream_cons] at h
  obtain ⟨missing, hframe, rfl⟩ | ⟨rest, hrx, hmore⟩ := List.append_eq_append_iff.mp h
  · by_cases hmissing : missing = []
    · subst hmissing
      exact .inr ⟨[], by rw [hframe, List.append_nil, List.append_nil], rfl⟩
    · exact .inl ⟨awaitsBytes_of_encode_eq hdistinct hframe hmissing, by simp [hmissing]⟩
  · exact .inr ⟨rest, hrx, hmore.symm⟩

/-! ## Frames in pieces (R71, R72) -/

/-- What stands unread, and the pieces still to come, one before each call, are together the frames of
these commands. -/
structure State.Receives (c : Config) (pieces : List (List Byte)) (is : List Instr) (s : State) : Prop where
  cfg_eq : s.cfg = c
  inputs_eq : s.inputs = pieces.map fun p => [Input.arrive p]
  stream_eq : s.rx ++ pieces.flatten = encodeStream c is

section Receives

variable {c : Config} {pieces : List (List Byte)} {is : List Instr} {s : State}

/-- The next piece moves from the producer to the stream. -/
theorem State.Receives.deliver (h : s.Receives c pieces is) : s.deliver.Receives c pieces.tail is := by
  obtain ⟨hcfg, hinputs, hstream⟩ := h
  refine ⟨s.deliver_cfg.trans hcfg, by rw [s.deliver_inputs, hinputs, List.map_tail], ?_⟩
  rw [s.deliver_rx, hinputs, ← hstream]
  cases pieces <;> simp [arrivals]

/-- Only the configuration, the inputs to come and the stream matter. -/
theorem State.Receives.congr {t : State} (h : s.Receives c pieces is) (hcfg : t.cfg = s.cfg)
    (hinputs : t.inputs = s.inputs) (hrx : t.rx = s.rx) : t.Receives c pieces is :=
  ⟨hcfg.trans h.cfg_eq, hinputs.trans h.inputs_eq, hrx ▸ h.stream_eq⟩

theorem State.Receives.step_of_awaitsBytes (h : s.Receives c pieces is) (hawaits : AwaitsBytes c s.deliver.rx) :
    Machine.step s = .next (tick s.deliver.readClock) ∧ s.dispatched = none ∧
      (tick s.deliver.readClock).Receives c pieces.tail is := by
  rw [← h.deliver.cfg_eq] at hawaits
  exact ⟨service_of_awaitsBytes hawaits, dispatched_of_awaitsBytes hawaits,
    h.deliver.congr (by simp) (by simp) (by simp)⟩

variable (hdistinct : c.opcodesDistinct = true)
include hdistinct

theorem State.Receives.step_of_frame {i : Instr} {more : List Instr} {rest : List Byte}
    (h : s.Receives c pieces is) (hrx : s.deliver.rx = encode c i ++ rest)
    (hmore : rest ++ pieces.tail.flatten = encodeStream c more) :
    ∃ t, Machine.step s = .next t ∧ s.dispatched = some i ∧ t.Receives c pieces.tail more := by
  obtain ⟨hcfg, hinputs, -⟩ := h.deliver
  have hdecode : decode s.deliver.cfg s.deliver.rx = .ok (i, rest) := by
    rw [hcfg, hrx]
    exact decode_encode_append hdistinct i rest
  obtain ⟨t, ht⟩ := exists_exec_next i ((tick s.deliver.readClock).setRx rest)
  obtain ⟨htcfg, htrx, htinputs⟩ := exec_next_env i _ t ht
  exact ⟨t, (step_of_decode hdecode).trans ht,
    (s.dispatched_eq_some_iff i).mpr ⟨rest, s.deliver_cfg ▸ hdecode⟩,
    htcfg.trans (by simpa using hcfg), htinputs.trans (by simpa using hinputs), htrx ▸ hmore⟩

/-- A step dispatches nothing, as long as pieces are missing or every command is done, or the next
command. -/
theorem State.Receives.step (h : s.Receives c pieces is) :
    ∃ t, Machine.step s = .next t ∧
      ((s.dispatched = none ∧ t.Receives c pieces.tail is ∧ (pieces = [] → is = [])) ∨
        ∃ i more, is = i :: more ∧ s.dispatched = some i ∧ t.Receives c pieces.tail more) := by
  have hstream := h.deliver.stream_eq
  cases is with
  | nil =>
    have hempty : s.deliver.rx = [] := (List.append_eq_nil_iff.mp hstream).1
    obtain ⟨ht, hnone, hnext⟩ := h.step_of_awaitsBytes (hempty ▸ awaitsBytes_nil c)
    exact ⟨_, ht, .inl ⟨hnone, hnext, fun _ => rfl⟩⟩
  | cons i more =>
    obtain ⟨hawaits, hlater⟩ | ⟨rest, hrx, hmore⟩ := awaitsBytes_or_frame_of_cut hdistinct hstream
    · obtain ⟨ht, hnone, hnext⟩ := h.step_of_awaitsBytes hawaits
      exact ⟨_, ht, .inl ⟨hnone, hnext, fun hpieces => absurd (by simp [hpieces]) hlater⟩⟩
    · obtain ⟨t, ht, hsome, hnext⟩ := h.step_of_frame hdistinct hrx hmore
      exact ⟨t, ht, .inr ⟨i, more, rfl, hsome, hnext⟩⟩

/-- No step leaves the order of the commands. -/
theorem State.Receives.dispatchLog_prefix (n : Nat) (h : s.Receives c pieces is) : dispatchLog n s <+: is := by
  induction n generalizing s pieces is with
  | zero => exact List.nil_prefix
  | succ n ih =>
    obtain ⟨t, ht, ⟨hnone, hnext, -⟩ | ⟨i, more, rfl, hsome, hnext⟩⟩ := h.step hdistinct
    · rw [dispatchLog_succ n s t ht, hnone]
      exact ih hnext
    · rw [dispatchLog_succ n s t ht, hsome]
      exact (List.prefix_cons_inj i).mpr (ih hnext)

/-- Each step takes in a piece or, once there are none, dispatches a command. -/
theorem State.Receives.dispatchLog_eq (n : Nat) (h : s.Receives c pieces is)
    (hn : pieces.length + is.length ≤ n) : dispatchLog n s = is := by
  induction n generalizing s pieces is with
  | zero =>
    rw [List.eq_nil_of_length_eq_zero (by omega : is.length = 0)]
    rfl
  | succ n ih =>
    obtain ⟨t, ht, ⟨hnone, hnext, hdone⟩ | ⟨i, more, rfl, hsome, hnext⟩⟩ := h.step hdistinct
    · have hrest : pieces.tail.length + is.length ≤ n := by
        cases pieces with
        | nil => simp [hdone rfl]
        | cons p later => rw [List.length_cons] at hn; rw [List.tail_cons]; omega
      rw [dispatchLog_succ n s t ht, hnone, ih hnext hrest]
      rfl
    · have hrest : pieces.tail.length + more.length ≤ n := by
        rw [List.length_cons] at hn
        rw [List.length_tail]
        omega
      rw [dispatchLog_succ n s t ht, hsome, ih hnext hrest]
      rfl

/-- With nothing more to come, every step dispatches the next command until none is left. -/
theorem State.Receives.runSteps_of_no_pieces (n : Nat) (h : s.Receives c [] is) :
    ∃ t, runSteps n s = .next t ∧ t.Receives c [] (is.drop n) ∧ dispatchLog n s = is.take n := by
  induction n generalizing s is with
  | zero => exact ⟨s, rfl, h, rfl⟩
  | succ n ih =>
    obtain ⟨u, hu, hnext⟩ := h.step hdistinct
    rw [runSteps_succ n s u hu, dispatchLog_succ n s u hu]
    obtain ⟨hnone, hnext, hdone⟩ | ⟨i, more, rfl, hsome, hnext⟩ := hnext <;>
      obtain ⟨t, hrun, ht, hlog⟩ := ih hnext
    · obtain rfl := hdone rfl
      rw [List.drop_nil] at ht
      exact ⟨t, hrun, ht, by rw [hnone, hlog, List.take_nil]; rfl⟩
    · exact ⟨t, hrun, ht, by rw [hsome, hlog]; rfl⟩

end Receives

/-- Settles O17, by induction on the calls: with no pieces to come, each dispatches the next frame. -/
theorem completeFramesDrainOnePerCall : Obligations.CompleteFramesDrainOnePerCall := by
  intro s is n hdistinct hinputs hrx
  have hreceives : s.Receives s.cfg [] is := ⟨rfl, hinputs, (List.append_nil _).trans hrx⟩
  obtain ⟨t, hrun, ht, hlog⟩ := hreceives.runSteps_of_no_pieces hdistinct n
  exact ⟨t, hrun, (List.append_nil _).symm.trans ht.stream_eq, hlog⟩

/-- Settles O18, by induction on the calls: what is unread and still to come stays the frames of the commands
not yet dispatched, wherever the pieces were cut. -/
theorem reassemblyIsTransparent : Obligations.ReassemblyIsTransparent := by
  intro s is pieces hdistinct hrx hinputs hpieces
  have hreceives : s.Receives s.cfg pieces is := ⟨rfl, hinputs, by rw [hrx, List.nil_append, hpieces]⟩
  exact ⟨fun n => hreceives.dispatchLog_prefix hdistinct n, fun n => hreceives.dispatchLog_eq hdistinct n⟩

/-! ## The first phase of a call's `TIMED_PULSE` (R74) -/

/-- A `start` whose highest bit has a slot loads the sequence and, with one sample per call, enters its
first phase at that sample. -/
theorem start_slot_of_once {s : State} {b : Word} (d : Word) (honce : s.cfg.clockSampling = .once) (hb : b ≠ 0)
    (hslot : msb b < s.cfg.bankTP.slots) :
    start b d s = ((((cancel s).setPending b).setDuration d).emit
      (pulseEntry s.cfg (msb b) .high)).setPhaseStart s.clock := by
  rw [start_nonzero s b d hb, enterPhase_slot _ (by simpa using hslot), State.now_once _ (by simpa using honce)]
  simp

/-- Settles O34: the `tick` comes before the `start`, and neither reads the clock again. -/
theorem firstPhaseBeginsAtTheCallsSample : Obligations.FirstPhaseBeginsAtTheCallsSample := by
  intro s b d rest honce hdecode hb hslot
  have hclock : (tick s.deliver.readClock).clock = s.deliver.readClock.clock :=
    (tick_sameClock_of_once (by simpa using honce)).1
  refine ⟨_, step_of_decode hdecode, ?_⟩
  rw [start_slot_of_once d (by simpa using honce) hb (by simpa using hslot)]
  simp [hclock]

end Sys2Proof.Machine
end

section
/-! Proofs about `41_commands.md`: the two direct writes (rules R80 to R82), what they leave alone (R84), and
`TIMED_PULSE` (R83). -/

namespace Sys2Proof.Machine

/-! ## The events of a direct write (R80) -/

/-- One event for each set bit that has a slot, in ascending order. -/
def directEvents (b : Bank) (bitset : Word) (entry : Pin → TraceEntry) : List TraceEntry :=
  (List.range 32).filterMap fun i => if bitset.getLsbD i then (b.pins[i]?).map entry else none

/-- A set bit selects a slot with this pin. -/
def Addressed (b : Bank) (bitset : Word) (p : Pin) : Prop :=
  ∃ i, bitset.getLsbD i = true ∧ b.pins[i]? = some p

theorem mem_directEvents_iff (b : Bank) (bitset : Word) (entry : Pin → TraceEntry) (e : TraceEntry) :
    e ∈ directEvents b bitset entry ↔ ∃ p, Addressed b bitset p ∧ entry p = e := by
  simp only [directEvents, List.mem_filterMap, List.mem_range, Option.ite_none_right_eq_some,
    Option.map_eq_some_iff]
  constructor
  · rintro ⟨i, -, hbit, p, hpin, he⟩
    exact ⟨p, ⟨i, hbit, hpin⟩, he⟩
  · rintro ⟨p, ⟨i, hbit, hpin⟩, he⟩
    exact ⟨i, BitVec.lt_of_getLsbD hbit, hbit, p, hpin, he⟩

/-- An index is addressed exactly if its bit is set and the bank's table has an entry for it. -/
theorem addressed_entry_eq (b : Bank) (bitset : Word) (entry : Pin → TraceEntry) (i : Nat) :
    (if addresses b bitset i then some (entry (pinOf b i)) else none) =
      if bitset.getLsbD i then (b.pins[i]?).map entry else none := by
  by_cases hslot : i < b.slots
  · rw [pinOf_of_lt b i hslot, List.getElem?_eq_getElem hslot]
    simp [addresses, hslot]
  · rw [List.getElem?_eq_none (Nat.not_lt.mp hslot)]
    simp [addresses, hslot]

theorem map_filter_addresses_eq_directEvents (b : Bank) (bitset : Word) (entry : Pin → TraceEntry) :
    ((List.range 32).filter (addresses b bitset)).map (fun i => entry (pinOf b i)) =
      directEvents b bitset entry := by
  rw [← List.filterMap_eq_map, List.filterMap_filter]
  exact List.filterMap_congr fun i _ => addressed_entry_eq b bitset entry i

theorem exec_digitalWrite (bitset : Word) (level : Byte) (s : State) :
    exec (.digitalWrite bitset level) s = .next { s with
      trace := s.trace ++ directEvents s.cfg.bankDW bitset fun p => ⟨.wd p level, none⟩ } := by
  rw [exec, execDigitalWrite, directWrite_digital, ← map_filter_addresses_eq_directEvents]

theorem exec_pwmSet (bitset : Word) (intensity : Byte) (s : State) :
    exec (.pwmSet bitset intensity) s = .next { s with
      trace := s.trace ++ directEvents s.cfg.bankPWM bitset fun p => ⟨.wp p intensity, none⟩ } := by
  rw [exec, execPwmSet, directWrite_pwm, ← map_filter_addresses_eq_directEvents]

/-- Settles O20: the loop of R80 emits the direct write's events. -/
theorem digitalWriteWritesAddressedPins : Obligations.DigitalWriteWritesAddressedPins := exec_digitalWrite

/-- Settles O21: the loop of R80 on the PWM bank. -/
theorem pwmSetWritesAddressedPins : Obligations.PwmSetWritesAddressedPins := exec_pwmSet

/-! ## What a direct write does to the shadow (R84, R136) -/

/-- Events that give no value leave the last one given. -/
theorem findSome?_reverse_append_of_none {α β : Type} (value : α → Option β) (before after : List α)
    (hafter : ∀ e ∈ after, value e = none) :
    (before ++ after).reverse.findSome? value = before.reverse.findSome? value := by
  have hnone : after.reverse.findSome? value = none := by simpa using hafter
  rw [List.reverse_append, List.findSome?_append, hnone, Option.none_or]

/-- Where events give one value only, and one of them gives it, that value is the last one given. -/
theorem findSome?_reverse_append_of_some {α β : Type} (value : α → Option β) (before after : List α) (v : β)
    (hgiven : ∃ e ∈ after, value e = some v) (honly : ∀ e ∈ after, value e = none ∨ value e = some v) :
    (before ++ after).reverse.findSome? value = some v := by
  have hlast : after.reverse.findSome? value = some v := by
    cases hfound : after.reverse.findSome? value with
    | none =>
      obtain ⟨e, he, hv⟩ := hgiven
      simp [List.findSome?_eq_none_iff.mp hfound e (List.mem_reverse.mpr he)] at hv
    | some w =>
      obtain ⟨e, he, hw⟩ := List.exists_of_findSome?_eq_some hfound
      simpa [hw] using honly e (List.mem_reverse.mp he)
  rw [List.reverse_append, List.findSome?_append, hlast, Option.some_or]

section Shadow

variable {β : Type} {value : TraceEntry → Option β} {entry : Pin → TraceEntry} {b : Bank} {bitset : Word}

/-- A direct write whose writes give the pin no value leaves the pin's shadow. -/
theorem findSome?_directEvents_of_none (trace : List TraceEntry)
    (hvalue : ∀ q, Addressed b bitset q → value (entry q) = none) :
    (trace ++ directEvents b bitset entry).reverse.findSome? value = trace.reverse.findSome? value := by
  refine findSome?_reverse_append_of_none value trace _ fun e he => ?_
  obtain ⟨q, hq, rfl⟩ := (mem_directEvents_iff b bitset entry e).mp he
  exact hvalue q hq

variable {p : Pin} {v : β} (hvalue : ∀ q, value (entry q) = if q = p then some v else none)
include hvalue

theorem findSome?_directEvents_of_addressed (trace : List TraceEntry) (hp : Addressed b bitset p) :
    (trace ++ directEvents b bitset entry).reverse.findSome? value = some v := by
  refine findSome?_reverse_append_of_some value trace _ v
    ⟨entry p, (mem_directEvents_iff b bitset entry _).mpr ⟨p, hp, rfl⟩, by rw [hvalue, if_pos rfl]⟩
    fun e he => ?_
  obtain ⟨q, -, rfl⟩ := (mem_directEvents_iff b bitset entry e).mp he
  rw [hvalue]
  split <;> simp

theorem findSome?_directEvents_of_not_addressed (trace : List TraceEntry)
    (hp : ∀ i, bitset.getLsbD i = true → b.pins[i]? ≠ some p) :
    (trace ++ directEvents b bitset entry).reverse.findSome? value = trace.reverse.findSome? value := by
  refine findSome?_directEvents_of_none trace fun q ⟨i, hbit, hpin⟩ => ?_
  rw [hvalue, if_neg]
  rintro rfl
  exact hp i hbit hpin

end Shadow

/-- `PULSE_HIGH` follows the scheduler's writes and no others (R24). -/
theorem pulseHigh_append_undriven (trace es : List TraceEntry) (hes : ∀ e ∈ es, e.drive = none) :
    pulseHigh (trace ++ es) = pulseHigh trace := by
  induction es using List.reverseRecOn with
  | nil => rw [List.append_nil]
  | append_singleton more e ih =>
    have he : e.drive = none := hes e (by simp)
    rw [← List.append_assoc, pulseHigh_append_singleton, ih fun f hf => hes f (by simp [hf]), pulseHighStep, he]

theorem pulseHigh_append_directEvents (trace : List TraceEntry) (b : Bank) (bitset : Word)
    {entry : Pin → TraceEntry} (hentry : ∀ p, (entry p).drive = none) :
    pulseHigh (trace ++ directEvents b bitset entry) = pulseHigh trace := by
  refine pulseHigh_append_undriven trace _ fun e he => ?_
  obtain ⟨p, -, rfl⟩ := (mem_directEvents_iff b bitset entry e).mp he
  exact hentry p

/-- Settles O22: the last value given is the write's for an addressed pin, and an older one for any other pin
and for the other kind of write. -/
theorem directWritesTouchExactlyTheirPins : Obligations.DirectWritesTouchExactlyTheirPins := by
  refine ⟨fun bitset level s t _ h => ?_, fun bitset intensity s t _ h => ?_⟩
  · obtain rfl := Host.Outcome.next.inj ((exec_digitalWrite bitset level s).symm.trans h)
    simp only [lvl_eq_findSome?, duty_eq_findSome?]
    exact ⟨fun p => findSome?_directEvents_of_addressed (fun _ => rfl) s.trace,
      fun p => findSome?_directEvents_of_not_addressed (fun _ => rfl) s.trace,
      fun p => findSome?_directEvents_of_none s.trace fun _ _ => rfl,
      pulseHigh_append_directEvents s.trace _ bitset fun _ => rfl, rfl⟩
  · obtain rfl := Host.Outcome.next.inj ((exec_pwmSet bitset intensity s).symm.trans h)
    simp only [lvl_eq_findSome?, duty_eq_findSome?]
    exact ⟨fun p => findSome?_directEvents_of_addressed (fun _ => rfl) s.trace,
      fun p => findSome?_directEvents_of_not_addressed (fun _ => rfl) s.trace,
      fun p => findSome?_directEvents_of_none s.trace fun _ _ => rfl,
      pulseHigh_append_directEvents s.trace _ bitset fun _ => rfl, rfl⟩

/-! ## `TIMED_PULSE` (R83, R90, R95) -/

/-- The cancel of a running sequence, as one event or none (R95). -/
theorem cancel_eq (s : State) : cancel s = { s with
    trace := s.trace ++ if s.pending = 0 then [] else [pulseEntry s.cfg (msb s.pending) .low] } := by
  by_cases h : s.pending = 0
  · rw [cancel_idle s h, if_pos h, List.append_nil]
  · rw [cancel_pulsing s h, if_neg h]
    rfl

/-- The cancel neither reads nor moves the clock. -/
theorem cancel_now (s : State) : (cancel s).now = { s.now with trace := (cancel s).trace } := by
  by_cases h : s.pending = 0
  · rw [cancel_idle s h, ← State.now_trace]
  · rw [cancel_pulsing s h, State.emit_now, State.emit_trace, ← State.now_trace]
    rfl

/-- A `start` whose highest bit has a slot loads the sequence and enters its first phase (R90). -/
theorem start_slot {s : State} {b : Word} (d : Word) (hb : b ≠ 0) (hslot : msb b < s.cfg.bankTP.slots) :
    start b d s = { s.now with
      pending := b
      duration := d
      phaseStart := s.now.clock
      trace := (cancel s).trace ++ [pulseEntry s.cfg (msb b) .high] } := by
  rw [start_nonzero s b d hb, enterPhase_slot _ (by simpa using hslot), State.setDuration_now,
    State.setPending_now, cancel_now, State.setDuration_cfg, State.setPending_cfg, cancel_cfg]
  rfl

/-- A `start` whose highest bit has no slot aborts after the cancel and the load (R90, R96). -/
theorem start_no_slot {s : State} {b : Word} (d : Word) (hb : b ≠ 0) (hslot : s.cfg.bankTP.slots ≤ msb b) :
    start b d s = (((cancel s).setPending b).setDuration d).abort (msb b) := by
  rw [start_nonzero s b d hb]
  exact enterPhase_no_slot _ (by simpa using hslot)

theorem exec_timedPulse (b d : Word) (s : State) : exec (.timedPulse b d) s = .next (start b d s) := rfl

/-- Settles O24: the three ways a `start` goes, with the cancel's event first in the last two. -/
theorem timedPulseStartsCancelsOrAborts : Obligations.TimedPulseStartsCancelsOrAborts := by
  refine fun bitset dur s => ⟨fun hb => ?_, fun hb hslot => ?_, fun hb hslot => ?_⟩
  · rw [exec_timedPulse, hb, start_zero]
  · rw [exec_timedPulse, start_slot dur hb hslot, cancel_eq]
  · rw [exec_timedPulse, start_no_slot dur hb hslot, cancel_eq]
    rfl

end Sys2Proof.Machine
end

section
/-! Proofs about `42_pulse_scheduler.md`: the order of a sequence (rule R92), `tick` line by line (R91, R101),
the end of a phase (R93, R98, R99), the abort (R96), and the course of an undisturbed sequence (R92, R100). -/

namespace Sys2Proof.Machine

/-! ## The set bits, highest first (R92) -/

theorem mem_setBitsDescending (v : Word) (i : Nat) : i ∈ setBitsDescending v ↔ v.getLsbD i = true := by
  simpa [setBitsDescending] using BitVec.lt_of_getLsbD

theorem setBitsDescending_pairwise (v : Word) : (setBitsDescending v).Pairwise (· > ·) :=
  (List.pairwise_reverse.mpr List.pairwise_lt_range).filter _

@[simp] theorem setBitsDescending_zero : setBitsDescending 0#32 = [] := by
  simp [setBitsDescending]

/-- The active actuator comes first, and behind it the bits that its phase leaves (R91, line 5). -/
theorem setBitsDescending_of_ne_zero {v : Word} (hv : v ≠ 0) :
    setBitsDescending v = msb v :: setBitsDescending (clear v (msb v)) := by
  have hbelow : ∀ j ∈ setBitsDescending (clear v (msb v)), msb v > j := fun j hj => by
    obtain ⟨hbit, hne⟩ := getLsbD_of_clear v _ j ((mem_setBitsDescending _ j).mp hj)
    exact lt_of_le_of_ne (le_msb_of_getLsbD v j hbit) hne
  refine (setBitsDescending_pairwise v).sortedGT.eq_of_mem_iff
    (List.pairwise_cons.mpr ⟨hbelow, setBitsDescending_pairwise _⟩).sortedGT fun j => ?_
  rw [List.mem_cons, mem_setBitsDescending, mem_setBitsDescending, getLsbD_clear_any]
  by_cases hj : j = msb v
  · simp [hj, getLsbD_msb v hv]
  · simp [hj]

theorem setBitsDescending_eq_nil_iff (v : Word) : setBitsDescending v = [] ↔ v = 0 := by
  refine ⟨fun h => ?_, fun h => h ▸ setBitsDescending_zero⟩
  by_contra hv
  simp [setBitsDescending_of_ne_zero hv] at h

/-- Settles O37: the range is filtered in falling order, and `msb` is the bit with none above it. -/
theorem setBitsDescendingAreTheSetBits : Obligations.SetBitsDescendingAreTheSetBits := fun v =>
  ⟨mem_setBitsDescending v, setBitsDescending_pairwise v, fun hv => by
    rw [setBitsDescending_of_ne_zero hv, List.head?_cons]⟩

/-! ## What a sequence still owes (R92) -/

/-- The events at the end of a phase, told from the actuators still to be paid: the active one goes LOW, and
the next, if there is one, goes HIGH at once (R91). -/
def phaseEvents (c : Config) : List Nat → List TraceEntry
  | [] => []
  | i :: more => pulseEntry c i .low :: (more.head?.map fun j => pulseEntry c j .high).toList

theorem restOfSequence_cons (c : Config) (i : Nat) (more : List Nat) :
    restOfSequence c (i :: more) = phaseEvents c (i :: more) ++ restOfSequence c more := by
  cases more <;> rfl

theorem phaseEvents_length_le (c : Config) (is : List Nat) : (phaseEvents c is).length ≤ 2 := by
  cases is with
  | nil => exact Nat.zero_le 2
  | cons i more => exact Nat.succ_le_succ Option.length_toList_le

theorem exists_of_mem_phaseEvents {c : Config} {is : List Nat} {e : TraceEntry} (he : e ∈ phaseEvents c is) :
    ∃ i ∈ is, ∃ l, e = pulseEntry c i l := by
  match is, he with
  | [i], he => exact ⟨i, by simp, .low, List.mem_singleton.mp he⟩
  | i :: j :: more, he =>
    obtain rfl | he := List.mem_cons.mp he
    · exact ⟨i, by simp, .low, rfl⟩
    · exact ⟨j, by simp, .high, List.mem_singleton.mp he⟩

/-- One LOW for each actuator, and one HIGH for each but the first. -/
theorem restOfSequence_length (c : Config) (is : List Nat) :
    (restOfSequence c is).length = 2 * is.length - 1 := by
  induction is with
  | nil => rfl
  | cons i more ih =>
    rw [restOfSequence_cons]
    cases more with
    | nil => rfl
    | cons j later => simp [phaseEvents, ih]; omega

/-! ## `tick`, line by line (R91) -/

section Lines

variable {s : State}

/-- A `tick` does nothing, or finds a phase over (R97). -/
theorem tick_eq_self_or_phase_over (s : State) :
    tick s = s ∨ s.pending ≠ 0 ∧ s.duration ≤ elapsed s.clock s.phaseStart := by
  obtain ⟨-, ht⟩ | ⟨-, -, ht⟩ | ⟨hpulsing, hover, -, -⟩ | ⟨hpulsing, hover, -, -⟩ := tick_cases s
  · exact .inl ht
  · exact .inl ht
  · exact .inr ⟨hpulsing, hover⟩
  · exact .inr ⟨hpulsing, hover⟩

/-- Nothing in Idle and nothing inside a phase (R98). -/
theorem tick_of_no_phase_over (h : s.pending = 0 ∨ elapsed s.clock s.phaseStart < s.duration) : tick s = s :=
  (tick_eq_self_or_phase_over s).resolve_right fun ⟨hpulsing, hover⟩ =>
    h.elim hpulsing (BitVec.not_lt.mpr hover)

section PhaseOver

variable (hpulsing : s.pending ≠ 0) (hover : s.duration ≤ elapsed s.clock s.phaseStart)

include hpulsing hover

theorem tick_of_phase_over :
    tick s = if clear s.pending (msb s.pending) = 0 then (endPhase s).setPhaseStart 0
      else enterPhase (endPhase s) :=
  (if_neg hpulsing).trans (if_neg (BitVec.not_lt.mpr hover))

/-- The last actuator is done (R91, line 6). -/
theorem tick_last (hleft : clear s.pending (msb s.pending) = 0) :
    tick s = { s with
      pending := 0
      phaseStart := 0
      trace := s.trace ++ [pulseEntry s.cfg (msb s.pending) .low] } := by
  rw [tick_of_phase_over hpulsing hover, if_pos hleft, endPhase_eq, hleft]
  rfl

/-- The next actuator begins in the same call (R91, lines 7 and 9). -/
theorem tick_next (hleft : clear s.pending (msb s.pending) ≠ 0)
    (hslot : msb (clear s.pending (msb s.pending)) < s.cfg.bankTP.slots) :
    tick s = { s.now with
      pending := clear s.pending (msb s.pending)
      phaseStart := s.now.clock
      trace := s.trace ++ [pulseEntry s.cfg (msb s.pending) .low,
        pulseEntry s.cfg (msb (clear s.pending (msb s.pending))) .high] } := by
  rw [tick_of_phase_over hpulsing hover, if_neg hleft, enterPhase_slot (endPhase s) hslot, endPhase_eq,
    State.setPending_now, State.emit_now]
  simp [State.setPhaseStart, State.emit, State.setPending]

/-- The next bit has no slot (R91, line 8). -/
theorem tick_abort (hleft : clear s.pending (msb s.pending) ≠ 0)
    (hslot : s.cfg.bankTP.slots ≤ msb (clear s.pending (msb s.pending))) :
    tick s = { s with
      pending := 0
      trace := s.trace ++ [pulseEntry s.cfg (msb s.pending) .low,
        ⟨.dg .pulseIndexOutOfRange (BitVec.ofNat 5 (msb (clear s.pending (msb s.pending)))), none⟩] } := by
  rw [tick_of_phase_over hpulsing hover, if_neg hleft, enterPhase_no_slot (endPhase s) hslot, endPhase_eq]
  simp [State.emit, State.setPending]

/-- However the sequence goes on, the active actuator goes LOW first. -/
theorem exists_tick_trace_of_phase_over :
    ∃ more, (tick s).trace = s.trace ++ pulseEntry s.cfg (msb s.pending) .low :: more := by
  by_cases hleft : clear s.pending (msb s.pending) = 0
  · rw [tick_last hpulsing hover hleft]
    exact ⟨_, rfl⟩
  · rcases Nat.lt_or_ge (msb (clear s.pending (msb s.pending))) s.cfg.bankTP.slots with hslot | hslot
    · rw [tick_next hpulsing hover hleft hslot]
      exact ⟨_, rfl⟩
    · rw [tick_abort hpulsing hover hleft hslot]
      exact ⟨_, rfl⟩

end PhaseOver

end Lines

/-- Settles O26, one clause for each line. -/
theorem tickFollowsItsLines : Obligations.TickFollowsItsLines := fun _ =>
  ⟨fun hidle => tick_of_no_phase_over (.inl hidle), fun _ hinside => tick_of_no_phase_over (.inr hinside),
    fun hpulsing hover =>
      ⟨tick_last hpulsing hover, tick_next hpulsing hover, tick_abort hpulsing hover⟩⟩

/-! ## When a phase ends (R93, R98, R99) -/

/-- Settles O27, by induction on the samples: each `tick` leaves the state as its sample found it. -/
theorem ticksInsideAPhaseDoNothing : Obligations.TicksInsideAPhaseDoNothing := by
  intro s samples t hquiet
  induction samples generalizing s with
  | nil => exact tick_of_no_phase_over (hquiet.imp_right fun h => h t (by simp))
  | cons u more ih =>
    have hfirst : tick { s with clock := u } = { s with clock := u } :=
      tick_of_no_phase_over (hquiet.imp_right fun h => h u (by simp))
    rw [List.cons_append, tickAt, List.foldl_cons, hfirst]
    exact ih { s with clock := u } (hquiet.imp_right fun h w hw => h w (List.mem_cons_of_mem u hw))

/-- A phase that is over leaves its LOW in the trace, so only a running phase is left as it is. -/
theorem tick_eq_self_iff {s : State} (hpulsing : s.pending ≠ 0) :
    tick s = s ↔ elapsed s.clock s.phaseStart < s.duration := by
  refine ⟨fun hself => ?_, fun hinside => tick_of_no_phase_over (.inr hinside)⟩
  by_contra hover
  obtain ⟨more, htrace⟩ := exists_tick_trace_of_phase_over hpulsing (BitVec.not_lt.mp hover)
  simp [hself] at htrace

theorem elapsed_add_left (start ms : Word) : elapsed (start + ms) start = ms := by
  rw [elapsed, BitVec.add_comm, BitVec.add_sub_cancel]

/-- Settles O28: `elapsed` is the modular difference, and the true time where that is below one turn. -/
theorem phaseEndsByModularTime : Obligations.PhaseEndsByModularTime := by
  refine fun s hpulsing => ⟨?_, fun ms hms hclock => ?_⟩
  · rw [tick_eq_self_iff hpulsing, BitVec.lt_def, elapsed_toNat]
  · rw [tick_eq_self_iff hpulsing, hclock, elapsed_add_left, BitVec.lt_def, BitVec.toNat_ofNat,
      Nat.mod_eq_of_lt hms]

/-- Settles O29: no time is below 0, and every time but one is below the longest duration. -/
theorem extremeDurations : Obligations.ExtremeDurations := by
  refine ⟨fun s hpulsing hzero => ?_, fun s hpulsing hlongest => ?_⟩
  · exact exists_tick_trace_of_phase_over hpulsing (by simp [hzero, BitVec.le_def])
  · rw [Ne, tick_eq_self_iff hpulsing, hlongest, elapsed]
    bv_omega

/-! ## Bits without a slot (R96, R101) -/

/-- Settles O25: the highest bit has no slot either, so `start` aborts, after at most the cancel's LOW. -/
theorem anyOutOfRangeBitAbortsTheWholePulse : Obligations.AnyOutOfRangeBitAbortsTheWholePulse := by
  rintro bitset dur s ⟨i, hbit, hslot⟩
  have hnonzero : bitset ≠ 0 := by rintro rfl; simp at hbit
  have hmsb : s.cfg.bankTP.slots ≤ msb bitset := hslot.trans (le_msb_of_getLsbD bitset i hbit)
  refine ⟨_, (if s.pending = 0 then [] else [pulseEntry s.cfg (msb s.pending) .low]) ++
    [⟨.dg .pulseIndexOutOfRange (BitVec.ofNat 5 (msb bitset)), none⟩], exec_timedPulse bitset dur s, ?_⟩
  rw [start_no_slot dur hnonzero hmsb, cancel_eq]
  refine ⟨rfl, rfl, List.append_assoc _ _ _, ?_, ?_⟩
  · split <;> rfl
  · split <;> simp [pulseEntry]

section InRange

variable {s : State} (hrange : s.pendingInRange)

include hrange

/-- The bit that is next was pending, so it has a slot. -/
theorem msb_left_lt_slots (hleft : clear s.pending (msb s.pending) ≠ 0) :
    msb (clear s.pending (msb s.pending)) < s.cfg.bankTP.slots :=
  hrange _ (getLsbD_of_clear _ _ _ (getLsbD_msb _ hleft)).1

/-- The end of a phase pays the active actuator and goes on to what is left: line 8 is dead (R101). -/
theorem tick_of_phase_over_of_inRange (hpulsing : s.pending ≠ 0)
    (hover : s.duration ≤ elapsed s.clock s.phaseStart) :
    (tick s).pending = clear s.pending (msb s.pending) ∧
      (tick s).trace = s.trace ++ phaseEvents s.cfg (setBitsDescending s.pending) ∧
      (tick s).phaseStart = if (tick s).pending = 0 then 0 else s.now.clock := by
  rw [setBitsDescending_of_ne_zero hpulsing]
  by_cases hleft : clear s.pending (msb s.pending) = 0
  · rw [tick_last hpulsing hover hleft, hleft]
    exact ⟨rfl, rfl, rfl⟩
  · rw [tick_next hpulsing hover hleft (msb_left_lt_slots hrange hleft), setBitsDescending_of_ne_zero hleft]
    exact ⟨rfl, rfl, (if_neg hleft).symm⟩

end InRange

/-- Settles O30: a `tick` emits nothing, or the events at the end of a phase. -/
theorem tickNeverAborts : Obligations.TickNeverAborts := by
  intro s hrange
  obtain hself | ⟨hpulsing, hover⟩ := tick_eq_self_or_phase_over s
  · exact ⟨[], by simp [hself]⟩
  · obtain ⟨-, htrace, -⟩ := tick_of_phase_over_of_inRange hrange hpulsing hover
    refine ⟨_, htrace, phaseEvents_length_le _ _, fun e he => ?_⟩
    obtain ⟨i, hi, l, rfl⟩ := exists_of_mem_phaseEvents he
    exact ⟨i, l, hrange i ((mem_setBitsDescending _ i).mp hi), rfl⟩

/-! ## An undisturbed sequence (R92, R100) -/

/-- From `s` to `t` the `k` highest actuators have been paid, in order: what has been emitted, followed by
what is still owed, is the same. -/
structure Pays (k : Nat) (s t : State) : Prop where
  cfg_eq : t.cfg = s.cfg
  left_eq : setBitsDescending t.pending = (setBitsDescending s.pending).drop k
  events_eq : t.trace ++ restOfSequence s.cfg (setBitsDescending t.pending) =
    s.trace ++ restOfSequence s.cfg (setBitsDescending s.pending)

namespace Pays

variable {k m : Nat} {s t u : State}

theorem refl (s : State) : Pays 0 s s := ⟨rfl, rfl, rfl⟩

theorem readClock (s : State) : Pays 0 s s.readClock := by constructor <;> simp

theorem trans (hst : Pays k s t) (htu : Pays m t u) : Pays (k + m) s u where
  cfg_eq := htu.cfg_eq.trans hst.cfg_eq
  left_eq := by rw [htu.left_eq, hst.left_eq, List.drop_drop]
  events_eq := by rw [← hst.events_eq, ← hst.cfg_eq, htu.events_eq]

/-- What is still pending was pending before. -/
theorem pendingInRange (h : Pays k s t) (hrange : s.pendingInRange) : t.pendingInRange := by
  intro i hi
  rw [← mem_setBitsDescending, h.left_eq] at hi
  rw [h.cfg_eq]
  exact hrange i ((mem_setBitsDescending _ i).mp (List.mem_of_mem_drop hi))

end Pays

/-- The end of a phase pays one actuator. -/
theorem tick_pays_one {s : State} (hrange : s.pendingInRange) (hpulsing : s.pending ≠ 0)
    (hover : s.duration ≤ elapsed s.clock s.phaseStart) : Pays 1 s (tick s) := by
  obtain ⟨hleft, htrace, -⟩ := tick_of_phase_over_of_inRange hrange hpulsing hover
  have hbits := setBitsDescending_of_ne_zero hpulsing
  refine ⟨tick_cfg s, by rw [hleft, hbits]; rfl, ?_⟩
  rw [htrace, hleft, hbits, restOfSequence_cons, List.append_assoc]

/-- A `tick` pays one actuator or none. -/
theorem tick_pays {s : State} (hrange : s.pendingInRange) : ∃ k ≤ 1, Pays k s (tick s) := by
  obtain hself | ⟨hpulsing, hover⟩ := tick_eq_self_or_phase_over s
  · rw [hself]
    exact ⟨0, Nat.zero_le 1, Pays.refl s⟩
  · exact ⟨1, le_rfl, tick_pays_one hrange hpulsing hover⟩

/-- With no bytes in the stream and none to come, a step is the clock sample and the `tick`. -/
theorem step_of_empty {s : State} (hrx : s.rx = []) (hinputs : s.inputs = []) :
    step s = .next (tick s.readClock) := by
  rw [step, s.deliver_no_input hinputs, service_of_awaitsBytes (hrx ▸ awaitsBytes_nil s.cfg)]

theorem runSteps_pays (n : Nat) {s : State} (hrange : s.pendingInRange) (hrx : s.rx = [])
    (hinputs : s.inputs = []) : ∃ t k, runSteps n s = .next t ∧ k ≤ n ∧ Pays k s t := by
  induction n generalizing s with
  | zero => exact ⟨s, 0, rfl, le_rfl, Pays.refl s⟩
  | succ n ih =>
    have hsample := Pays.readClock s
    obtain ⟨k, hk, htick⟩ := tick_pays (hsample.pendingInRange hrange)
    have hstep := hsample.trans htick
    obtain ⟨t, m, hrun, hm, hmore⟩ := ih (hstep.pendingInRange hrange) (by simpa using hrx) (by simpa using hinputs)
    exact ⟨t, _, (runSteps_succ n s _ (step_of_empty hrx hinputs)).trans hrun, by omega, hstep.trans hmore⟩

/-- Settles O35, by induction on the calls: each pays the active actuator or none. -/
theorem pulseOrderIsHighestFirst : Obligations.PulseOrderIsHighestFirst := by
  intro n s hrange hrx hinputs
  obtain ⟨t, k, hrun, hk, hpays⟩ := runSteps_pays n hrange hrx hinputs
  exact ⟨t, k, hrun, hk, hpays.left_eq, hpays.events_eq⟩

/-- Between two calls of an undisturbed sequence, one sample per call, at the sample that began the active
actuator's phase, or with the sequence over. -/
structure State.PhaseBegins (s : State) : Prop where
  once : s.cfg.clockSampling = .once
  inRange : s.pendingInRange
  rx_eq : s.rx = []
  inputs_eq : s.inputs = []
  phaseStart_eq : s.phaseStart = if s.pending = 0 then 0 else s.clock

/-- A call `DURATION` or more after the one that began a phase ends it, and begins the next. -/
theorem State.PhaseBegins.step {s : State} (h : s.PhaseBegins) (hpulsing : s.pending ≠ 0) {g : Nat}
    {later : List Nat} (hclockIn : s.clockIn = g :: later) (hlate : s.duration.toNat ≤ g % 2 ^ 32) :
    ∃ t, Machine.step s = .next t ∧ Pays 1 s t ∧ t.PhaseBegins ∧ t.duration = s.duration ∧
      t.clockIn = later := by
  have hread := s.readClock_input g later hclockIn
  have honce : s.readClock.cfg.clockSampling = .once := by simpa using h.once
  have hpulsing' : s.readClock.pending ≠ 0 := by simpa using hpulsing
  have hstart : s.phaseStart = s.clock := h.phaseStart_eq.trans (if_neg hpulsing)
  have hover : s.readClock.duration ≤ elapsed s.readClock.clock s.readClock.phaseStart := by
    simpa [hread, hstart, elapsed_add_left, BitVec.le_def] using hlate
  have hsample := Pays.readClock s
  have hrange := hsample.pendingInRange h.inRange
  have hpays : Pays 1 s (tick s.readClock) := hsample.trans (tick_pays_one hrange hpulsing' hover)
  obtain ⟨hclock, hlater⟩ := tick_sameClock_of_once honce
  obtain ⟨-, -, hphase⟩ := tick_of_phase_over_of_inRange hrange hpulsing' hover
  rw [State.now_once _ honce, ← hclock] at hphase
  exact ⟨_, step_of_empty h.rx_eq h.inputs_eq, hpays,
    ⟨by simpa using h.once, hpays.pendingInRange h.inRange, by simpa using h.rx_eq,
      by simpa using h.inputs_eq, hphase⟩, by simp, by rw [hlater, hread]⟩

/-- Late enough calls pay one actuator each, as long as there is one to pay. -/
theorem State.PhaseBegins.runSteps {s : State} (h : s.PhaseBegins) {gaps : List Nat} (hclockIn : s.clockIn = gaps)
    (hfew : gaps.length ≤ (setBitsDescending s.pending).length)
    (hlate : ∀ g ∈ gaps, s.duration.toNat ≤ g % 2 ^ 32) :
    ∃ t, Machine.runSteps gaps.length s = .next t ∧ Pays gaps.length s t ∧ t.PhaseBegins ∧
      t.duration = s.duration := by
  induction gaps generalizing s with
  | nil => exact ⟨s, rfl, Pays.refl s, h, rfl⟩
  | cons g later ih =>
    obtain ⟨hfirst, hrest⟩ := List.forall_mem_cons.mp hlate
    have hpulsing : s.pending ≠ 0 := fun hidle => by simp [hidle] at hfew
    obtain ⟨u, hstep, hone, hu, hduration, hulater⟩ := h.step hpulsing hclockIn hfirst
    have hufew : later.length ≤ (setBitsDescending u.pending).length := by
      rw [hone.left_eq, List.length_drop]
      rw [List.length_cons] at hfew
      omega
    obtain ⟨t, hrun, hmore, ht, htduration⟩ := ih hu hulater hufew (hduration ▸ hrest)
    refine ⟨t, (runSteps_succ _ s u hstep).trans hrun, ?_, ht, htduration.trans hduration⟩
    rw [List.length_cons, Nat.add_comm]
    exact hone.trans hmore

/-- Settles O36, by induction on the gaps: `start` begins the first phase, and each call ends one. -/
theorem pulseSequenceRunsToItsEnd : Obligations.PulseSequenceRunsToItsEnd := by
  intro s b d gaps hb hslot hidle honce hrx hinputs hclockIn hfew hlate
  have hstart := start_slot_of_once d honce hb hslot
  rw [cancel_idle s hidle] at hstart
  have hbegins : (start b d s).PhaseBegins := by
    rw [hstart]
    exact ⟨honce, State.pendingInRange_of_msb_lt hslot, hrx, hinputs, (if_neg hb).symm⟩
  have hpending : (start b d s).pending = b := by rw [hstart]; rfl
  have hduration : (start b d s).duration = d := start_duration b d s hb
  obtain ⟨t, hrun, hpays, ht, htduration⟩ := hbegins.runSteps (gaps := gaps) (by rw [hstart]; exact hclockIn)
    (by rwa [hpending]) (by rwa [hduration])
  have hleft := hpays.left_eq
  rw [hpending] at hleft
  refine ⟨_, t, exec_timedPulse b d s, hrun, fun hfewer hdone => ?_, fun hall => ?_⟩
  · have hpaid := (setBitsDescending_eq_nil_iff _).mpr hdone
    rw [hleft, List.drop_eq_nil_iff] at hpaid
    omega
  · rw [hall, List.drop_length] at hleft
    have hdone : t.pending = 0 := (setBitsDescending_eq_nil_iff _).mp hleft
    have htrace : t.trace = s.trace ++ pulseEntry s.cfg (msb b) .high ::
        restOfSequence s.cfg (setBitsDescending b) := by
      have hevents := hpays.events_eq
      rw [hleft, hpending, restOfSequence, List.append_nil, start_cfg] at hevents
      rw [hevents, hstart]
      exact List.append_assoc _ _ _
    refine ⟨hdone, ht.phaseStart_eq.trans (if_pos hdone), htduration.trans hduration, htrace, ?_⟩
    have hsome : 0 < (setBitsDescending b).length := by simp [setBitsDescending_of_ne_zero hb]
    rw [htrace, List.length_append, List.length_cons, restOfSequence_length]
    omega

end Sys2Proof.Machine
end

section
/-! Proofs about `60_exceptions.md`: the zero target (rule R114), and the effect of each of the four error
conditions (R110 to R114) in the order of the tests (R118). -/

namespace Sys2Proof.Machine

/-! ## A zero target (R114) -/

theorem directEvents_zero (b : Bank) (entry : Pin → TraceEntry) : directEvents b 0 entry = [] := by
  simp [directEvents]

/-- A direct write without addressed pins emits nothing, and `start` returns before its cancel. -/
theorem exec_of_bitset_eq_zero {i : Instr} (h : i.bitset = 0) (s : State) : exec i s = .next s := by
  cases i with
  | digitalWrite b l =>
    obtain rfl : b = 0 := h
    rw [exec_digitalWrite, directEvents_zero, List.append_nil]
  | timedPulse b d =>
    obtain rfl : b = 0 := h
    rw [exec_timedPulse, start_zero]
  | pwmSet b v =>
    obtain rfl : b = 0 := h
    rw [exec_pwmSet, directEvents_zero, List.append_nil]

/-- Settles O23: the frame is consumed, and the command does nothing. -/
theorem zeroTargetIsANoOp : Obligations.ZeroTargetIsANoOp := fun s _ rest hdecode hzero =>
  (pollOnce_of_decode hdecode).trans (exec_of_bitset_eq_zero hzero (s.setRx rest))

/-! ## The conditions a `poll_once` meets (R110, R118) -/

/-- A handler meets (d), or (c) where the command is a `TIMED_PULSE` (R113, R114). -/
theorem handlerCondition_cases {c : Config} {i : Instr} {cond : Condition}
    (h : handlerCondition c i = some cond) :
    (cond = .zeroTarget ∧ i.bitset = 0) ∨
    (cond = .outOfRangeIndex ∧ ∃ b d, i = .timedPulse b d ∧ b ≠ 0 ∧ c.bankTP.slots ≤ msb b) := by
  cases i with
  | digitalWrite b l =>
    obtain ⟨hzero, hcond⟩ := Option.ite_none_right_eq_some.mp h
    exact .inl ⟨(Option.some.inj hcond).symm, hzero⟩
  | timedPulse b d =>
    by_cases hzero : b = 0
    · exact .inl ⟨(Option.some.inj ((if_pos hzero).symm.trans h)).symm, hzero⟩
    · obtain ⟨hslot, hcond⟩ := Option.ite_none_right_eq_some.mp ((if_neg hzero).symm.trans h)
      exact .inr ⟨(Option.some.inj hcond).symm, b, d, rfl, hzero, hslot⟩
  | pwmSet b v =>
    obtain ⟨hzero, hcond⟩ := Option.ite_none_right_eq_some.mp h
    exact .inl ⟨(Option.some.inj hcond).symm, hzero⟩

/-- A `poll_once` that meets a condition meets it in its decoder, or in the handler of its frame (R118). -/
theorem State.pollCondition_cases (s : State) {cond : Condition} (h : s.pollCondition = some cond) :
    (cond = .unknownOpcode ∧ pollOnce s = .next s.meetUnknownOpcode) ∨
    (cond = .incompleteFrame ∧ pollOnce s = .next s) ∨
    (∃ i rest, decode s.cfg s.rx = .ok (i, rest) ∧ handlerCondition s.cfg i = some cond) := by
  obtain ⟨hd, -⟩ | ⟨op, hd, hp⟩ | ⟨op, n, hd, hp⟩ | ⟨i, rest, hd, -⟩ := pollOnce_cases s <;>
    simp only [State.pollCondition, hd] at h
  · cases h
  · exact .inl ⟨(Option.some.inj h).symm, hp⟩
  · exact .inr (.inl ⟨(Option.some.inj h).symm, hp⟩)
  · exact .inr (.inr ⟨i, rest, hd, h⟩)

theorem pollOnce_of_incompleteFrame {s : State} (h : s.pollCondition = some .incompleteFrame) :
    pollOnce s = .next s := by
  obtain ⟨⟨⟩, -⟩ | ⟨-, hp⟩ | ⟨i, rest, -, hhandler⟩ := s.pollCondition_cases h
  · exact hp
  · obtain ⟨⟨⟩, -⟩ | ⟨⟨⟩, -⟩ := handlerCondition_cases hhandler

theorem pollOnce_of_unknownOpcodeCondition {s : State} (h : s.pollCondition = some .unknownOpcode) :
    pollOnce s = .next s.meetUnknownOpcode := by
  obtain ⟨-, hp⟩ | ⟨⟨⟩, -⟩ | ⟨i, rest, -, hhandler⟩ := s.pollCondition_cases h
  · exact hp
  · obtain ⟨⟨⟩, -⟩ | ⟨⟨⟩, -⟩ := handlerCondition_cases hhandler

theorem State.exists_decode_of_zeroTarget (s : State) (h : s.pollCondition = some .zeroTarget) :
    ∃ i rest, decode s.cfg s.rx = .ok (i, rest) ∧ i.bitset = 0 := by
  obtain ⟨⟨⟩, -⟩ | ⟨⟨⟩, -⟩ | ⟨i, rest, hd, hhandler⟩ := s.pollCondition_cases h
  obtain ⟨-, hzero⟩ | ⟨⟨⟩, -⟩ := handlerCondition_cases hhandler
  exact ⟨i, rest, hd, hzero⟩

theorem State.exists_decode_of_outOfRangeIndex (s : State) (h : s.pollCondition = some .outOfRangeIndex) :
    ∃ b d rest, decode s.cfg s.rx = .ok (.timedPulse b d, rest) ∧ b ≠ 0 ∧ s.cfg.bankTP.slots ≤ msb b := by
  obtain ⟨⟨⟩, -⟩ | ⟨⟨⟩, -⟩ | ⟨i, rest, hd, hhandler⟩ := s.pollCondition_cases h
  obtain ⟨⟨⟩, -⟩ | ⟨-, b, d, rfl, hb, hslot⟩ := handlerCondition_cases hhandler
  exact ⟨b, d, rest, hd, hb, hslot⟩

/-! ## What each condition does (R111 to R114) -/

theorem opcodeSize_eq_six_or_nine (o : Opcode) : o.size = 6 ∨ o.size = 9 := by cases o <;> decide

/-- Settles O45, one condition at a time: (a) and (b) leave the state, (d) drops a frame, and (c) aborts. -/
theorem errorConditionsHaveTheirEffects : Obligations.ErrorConditionsHaveTheirEffects := by
  refine fun s hpolicy => ⟨pollOnce_of_incompleteFrame, fun h => ?_, fun h => ?_, fun h => ?_⟩
  · rw [pollOnce_of_unknownOpcodeCondition h, s.meetUnknownOpcode_leave hpolicy]
  · obtain ⟨i, rest, hd, hzero⟩ := s.exists_decode_of_zeroTarget h
    refine ⟨_, opcodeSize_eq_six_or_nine (Laws.EncodeSize.opcode i), ?_⟩
    rw [zeroTargetIsANoOp s i rest hd hzero, (decode_ok_size hd).2]
  · obtain ⟨b, d, rest, hd, hb, hslot⟩ := s.exists_decode_of_outOfRangeIndex h
    refine ⟨b, d, rest, _, hd, (pollOnce_of_decode hd).trans (exec_timedPulse b d _), start_rx _ b d, ?_⟩
    rw [start_no_slot d hb (by simpa using hslot)]
    exact ⟨if_pos rfl, by simp⟩

end Sys2Proof.Machine
end

section
/-! Proofs about `70_reset_and_hazards.md`: a reset among the inputs of a call (rule R130), and the number of
events one call can emit (R142). -/

namespace Sys2Proof.Machine

/-! ## Between two calls, with a reset (R130) -/

/-- Wherever the reset stands among the inputs, it clears the block, and no byte that arrives is lost. -/
theorem foldl_applyInput_of_reset (before : List Input) (s : State) (h : Input.reset ∈ before) :
    before.foldl State.applyInput s = s.assertReset.setRx (s.rx ++ arrivals before) := by
  induction before generalizing s with
  | nil => cases h
  | cons i more ih =>
    rw [List.foldl_cons]
    by_cases hmore : Input.reset ∈ more
    · rw [ih (s.applyInput i) hmore]
      cases i with
      | arrive bytes => simp [arrivals, State.assertReset, State.setRx]
      | reset => rfl
    · obtain rfl : Input.reset = i := (List.mem_cons.mp h).resolve_right hmore
      exact foldl_applyInput_of_no_reset more s.assertReset hmore

/-- Where a reset is among the inputs of a call, the registers and the trace are cleared, and the stream grows
by all the bytes that arrive, before the reset or after it. -/
theorem State.deliver_of_reset (s : State) (h : Input.reset ∈ s.inputs.headD []) :
    s.deliver = { s with
      pending := 0
      duration := 0
      phaseStart := 0
      trace := []
      rx := s.rx ++ arrivals (s.inputs.headD [])
      inputs := s.inputs.tail } := by
  unfold State.deliver
  cases hs : s.inputs with
  | nil => simp [hs] at h
  | cons before later =>
    rw [hs] at h
    exact foldl_applyInput_of_reset before _ h

/-- Settles O47, as the case of a reset with bytes behind it. -/
theorem resetOfARunningMachine : Obligations.ResetOfARunningMachine := by
  intro s bytes later hinputs
  rw [s.deliver_of_reset (by simp [hinputs]), hinputs]
  simp [arrivals]

/-! ## How many events an operation emits (R142) -/

/-- From `s` to `t` the trace has grown by `n` events at most. -/
def EmitsAtMost (n : Nat) (s t : State) : Prop :=
  ∃ es, t.trace = s.trace ++ es ∧ es.length ≤ n

namespace EmitsAtMost

variable {m n : Nat} {s t u : State}

theorem of_trace_eq (h : t.trace = s.trace) : EmitsAtMost n s t := ⟨[], by simp [h], by simp⟩

theorem of_trace_eq_append_singleton {e : TraceEntry} (h : t.trace = s.trace ++ [e]) : EmitsAtMost 1 s t :=
  ⟨[e], h, le_rfl⟩

theorem trans (hst : EmitsAtMost m s t) (htu : EmitsAtMost n t u) : EmitsAtMost (m + n) s u := by
  obtain ⟨es, ht, hes⟩ := hst
  obtain ⟨fs, hu, hfs⟩ := htu
  refine ⟨es ++ fs, by rw [hu, ht, List.append_assoc], ?_⟩
  rw [List.length_append]
  exact Nat.add_le_add hes hfs

theorem mono (h : EmitsAtMost m s t) (hmn : m ≤ n) : EmitsAtMost n s t :=
  let ⟨es, ht, hes⟩ := h; ⟨es, ht, hes.trans hmn⟩

end EmitsAtMost

/-! ## The scheduler's events (R90, R91) -/

/-- Entering a phase is one HIGH or one diagnostic. -/
theorem enterPhase_emitsAtMost_one (s : State) : EmitsAtMost 1 s (enterPhase s) := by
  rcases Nat.lt_or_ge (msb s.pending) s.cfg.bankTP.slots with hslot | hslot
  · rw [enterPhase_slot s hslot]
    exact .of_trace_eq_append_singleton (e := pulseEntry s.cfg (msb s.pending) .high) (by simp)
  · rw [enterPhase_no_slot s hslot]
    exact .of_trace_eq_append_singleton rfl

theorem cancel_emitsAtMost_one (s : State) : EmitsAtMost 1 s (cancel s) := by
  by_cases h : s.pending = 0
  · rw [cancel_idle s h]
    exact .of_trace_eq rfl
  · rw [cancel_pulsing s h]
    exact .of_trace_eq_append_singleton rfl

/-- A `tick` ends a phase and enters another one, at most. -/
theorem tick_emitsAtMost_two (s : State) : EmitsAtMost 2 s (tick s) := by
  have hend : EmitsAtMost 1 s (endPhase s) := .of_trace_eq_append_singleton rfl
  obtain ⟨-, ht⟩ | ⟨-, -, ht⟩ | ⟨-, -, -, ht⟩ | ⟨-, -, -, ht⟩ := tick_cases s <;> rw [ht]
  · exact .of_trace_eq rfl
  · exact .of_trace_eq rfl
  · exact hend.trans (n := 1) (.of_trace_eq rfl)
  · exact hend.trans (enterPhase_emitsAtMost_one (endPhase s))

/-- A `start` cancels and enters a phase, at most. -/
theorem start_emitsAtMost_two (b d : Word) (s : State) : EmitsAtMost 2 s (start b d s) := by
  by_cases hb : b = 0
  · rw [hb, start_zero]
    exact .of_trace_eq rfl
  · have hload : EmitsAtMost 1 s (((cancel s).setPending b).setDuration d) := cancel_emitsAtMost_one s
    rw [start_nonzero s b d hb]
    exact hload.trans (enterPhase_emitsAtMost_one _)

/-! ## The frame's events (R80, R66) -/

/-- A direct write emits one event per slot at most: the indices it addresses are distinct slots. -/
theorem directEvents_length_le (b : Bank) (bitset : Word) (entry : Pin → TraceEntry) :
    (directEvents b bitset entry).length ≤ b.slots := by
  have hslots : (List.range 32).filter (addresses b bitset) ⊆ List.range b.slots := fun i hi =>
    List.mem_range.mpr ((addresses_iff b bitset i).mp (List.of_mem_filter hi)).2
  have hlength := (List.nodup_range.filter (addresses b bitset)).subperm hslots |>.length_le
  rwa [← map_filter_addresses_eq_directEvents, List.length_map, ← List.length_range (n := b.slots)]

/-- The bound of R142 for one frame: a `start`, or a direct write to one of the two banks. -/
def frameEventBound (c : Config) : Nat := max 2 (max c.bankDW.slots c.bankPWM.slots)

theorem exec_emitsAtMost {i : Instr} {s t : State} (h : exec i s = .next t) :
    EmitsAtMost (frameEventBound s.cfg) s t := by
  cases i with
  | digitalWrite b l =>
    obtain rfl := Host.Outcome.next.inj ((exec_digitalWrite b l s).symm.trans h)
    exact ⟨_, rfl, (directEvents_length_le _ b _).trans (by simp [frameEventBound])⟩
  | timedPulse b d =>
    obtain rfl := Host.Outcome.next.inj ((exec_timedPulse b d s).symm.trans h)
    exact (start_emitsAtMost_two b d s).mono (Nat.le_max_left _ _)
  | pwmSet b v =>
    obtain rfl := Host.Outcome.next.inj ((exec_pwmSet b v s).symm.trans h)
    exact ⟨_, rfl, (directEvents_length_le _ b _).trans (by simp [frameEventBound])⟩

theorem pollOnce_emitsAtMost {s t : State} (h : pollOnce s = .next t) :
    EmitsAtMost (frameEventBound s.cfg) s t := by
  obtain ⟨-, hp⟩ | ⟨_, -, hp⟩ | ⟨_, _, -, hp⟩ | ⟨i, rest, -, hp⟩ := pollOnce_cases s
  · obtain rfl := Host.Outcome.next.inj (hp.symm.trans h)
    exact .of_trace_eq rfl
  · obtain rfl := Host.Outcome.next.inj (hp.symm.trans h)
    obtain ⟨rx, hrx⟩ := s.exists_meetUnknownOpcode_eq_setRx
    exact .of_trace_eq (by rw [hrx, State.setRx_trace])
  · obtain rfl := Host.Outcome.next.inj (hp.symm.trans h)
    exact .of_trace_eq rfl
  · exact exec_emitsAtMost (s := s.setRx rest) (hp.symm.trans h)

/-- Settles O44: the clock sample emits nothing, the `tick` at most two events, and the frame its bound. -/
theorem eventsPerCallAreBounded : Obligations.EventsPerCallAreBounded := by
  intro s t h
  have hread : EmitsAtMost 0 s s.readClock := .of_trace_eq s.readClock_trace
  have htick := hread.trans (tick_emitsAtMost_two s.readClock)
  have hframe := pollOnce_emitsAtMost h
  rw [tick_cfg, State.readClock_cfg] at hframe
  exact (htick.trans hframe).mono (by simp [frameEventBound])

end Sys2Proof.Machine
end
